-- ==== Sys2Proof/Word.lean ====
section
/-! DEFINITION. The bit patterns of the E20 core, each of the width the spec gives it (00_scope.md R6, R10). -/

namespace Sys2Proof

/-- A register, a memory cell or an instruction word: 16 bits (R6 `WORD`). -/
abbrev Word := BitVec 16

/-- A word address or program counter value: 13 bits (R6 `ADDR`, R25). -/
abbrev Addr := BitVec 13

/-- The value of a 3-bit register field, selecting R0..R7 directly (R53). -/
abbrev RegIdx := BitVec 3

/-- The value of the 3-bit opcode field (R52). -/
abbrev Opcode := BitVec 3

/-- The value of the 4-bit function selector (R54). -/
abbrev Func := BitVec 4

/-- The raw 7-bit short immediate field, signed or unsigned by opcode (R55, R57, R58). -/
abbrev Imm7 := BitVec 7

end Sys2Proof
end

