-- ==== Sys2Proof/Machine/Flags.lean ====
section
/-! DEFINITION. Conditions. The core has no flags and no condition codes (10_state.md R29): the comparisons below go
to a register (SLT, SLTI) or are used at once to choose the next PC (JEQ), and nothing else is ever set. -/

namespace Sys2Proof.Machine

/-- The ALU's SLTU result: 16-bit 1 if `p < q` as unsigned integers, else 0 (40_execution_cycle.md R81, R82). -/
def setLessUnsigned (p q : Word) : Word := if p.toNat < q.toNat then 1#16 else 0#16

/-- The ALU's `eq` output: whether the two 16-bit patterns are equal (40_execution_cycle.md R81, R82). -/
def equalPatterns (p q : Word) : Bool := p == q

end Sys2Proof.Machine
end

