-- ==== Sys2Proof/Syntax.lean ====
section
/-! DEFINITION. The instructions of the E20 core: one constructor per operation of spec/opcode_table.json
(30_encoding.md R62, R63). The table's three `jr` rows are the three patterns of ONE operation (R62, R64) and share
the constructor `jr`, whose `func` tells them apart. -/

namespace Sys2Proof

/-- An instruction with its raw fields, in field order (30_encoding.md R59). -/
inductive Instr where
  /-- R85: `x[rC] <- x[rA] + x[rB]`. -/
  | add (rA rB rC : RegIdx)
  /-- R86: `x[rC] <- x[rA] - x[rB]`. -/
  | sub (rA rB rC : RegIdx)
  /-- R87: `x[rC] <- x[rA] OR x[rB]`. -/
  | or (rA rB rC : RegIdx)
  /-- R88: `x[rC] <- x[rA] AND x[rB]`. -/
  | and (rA rB rC : RegIdx)
  /-- R89: `x[rC] <- x[rA] < x[rB]`, unsigned. -/
  | slt (rA rB rC : RegIdx)
  /-- R92: `pc <- x[rA][12:0]`. `rB`, `rC` and the exact `func` in 5..15 are ignored by the machine (R65); they are
  kept so that an instruction and its word determine each other (assumption log 6, DESIGN CHOICE, safe). -/
  | jr (rA rB rC : RegIdx) (func : Func)
  /-- R90: `x[rB] <- x[rA] + sext imm7`. -/
  | addi (rA rB : RegIdx) (imm7 : Imm7)
  /-- R93: jump to `imm13`; halt when `imm13` is the instruction's own address. -/
  | j (imm13 : Addr)
  /-- R94: `x[7] <- pc + 1`, jump to `imm13`. -/
  | jal (imm13 : Addr)
  /-- R96: `x[rB] <- M[x[rA] + sext imm7]`. -/
  | lw (rA rB : RegIdx) (imm7 : Imm7)
  /-- R97: `M[x[rA] + sext imm7] <- x[rB]`. -/
  | sw (rA rB : RegIdx) (imm7 : Imm7)
  /-- R95: branch to `pc + 1 + sext imm7` when `x[rA] = x[rB]`. -/
  | jeq (rA rB : RegIdx) (imm7 : Imm7)
  /-- R91: `x[rB] <- x[rA] < zext imm7`, unsigned. -/
  | slti (rA rB : RegIdx) (imm7 : Imm7)
deriving DecidableEq, Repr

/-- The decoder's `kind` output: the enumeration of 13 operations (30_encoding.md R60, R62). -/
inductive Kind where
  | add | sub | or | and | slt | jr | addi | j | jal | lw | sw | jeq | slti
deriving DecidableEq, Repr

/-- The operation an instruction belongs to. -/
def Instr.kind : Instr → Kind
  | .add _ _ _ => .add
  | .sub _ _ _ => .sub
  | .or _ _ _ => .or
  | .and _ _ _ => .and
  | .slt _ _ _ => .slt
  | .jr _ _ _ _ => .jr
  | .addi _ _ _ => .addi
  | .j _ => .j
  | .jal _ => .jal
  | .lw _ _ _ => .lw
  | .sw _ _ _ => .sw
  | .jeq _ _ _ => .jeq
  | .slti _ _ _ => .slti

/-- One row of the opcode map: a word `w` belongs to the row when `w AND mask = pattern` (30_encoding.md R63). -/
structure OpRow where
  kind : Kind
  pattern : Word
  mask : Word
deriving DecidableEq, Repr

end Sys2Proof
end

