-- ==== Sys2Proof/WellFormed.lean ====
section
/-! DEFINITION. Which instructions an instruction word can hold. Field widths are in the types of `Instr`; the one
relation left is JR's function selector, which lies in 5..15 (30_encoding.md R62, R64). -/

namespace Sys2Proof

/-- An instruction that some word encodes: a `jr` whose function selector is not one of the five ALU operations',
and every other instruction. -/
def Instr.wellFormed : Instr → Bool
  | .jr _ _ _ func => decide (5 ≤ func.toNat)
  | .add _ _ _ => true
  | .sub _ _ _ => true
  | .or _ _ _ => true
  | .and _ _ _ => true
  | .slt _ _ _ => true
  | .addi _ _ _ => true
  | .j _ => true
  | .jal _ => true
  | .lw _ _ _ => true
  | .sw _ _ _ => true
  | .jeq _ _ _ => true
  | .slti _ _ _ => true

end Sys2Proof
end

