-- ==== Sys2Proof/Decode.lean ====
section
/-! DEFINITION. The decoder (30_encoding.md R51 to R65) and, after it, the encoder. The decoder is total: no word is
illegal, reserved or rejected (R64), so it answers an instruction and never an error. -/

namespace Sys2Proof

/-- `op = w[15:13]` (R52). -/
def opField (w : Word) : Opcode := w.extractLsb' 13 3

/-- `rA = w[12:10]` (R53). -/
def rAField (w : Word) : RegIdx := w.extractLsb' 10 3

/-- `rB = w[9:7]` (R53). -/
def rBField (w : Word) : RegIdx := w.extractLsb' 7 3

/-- `rC = w[6:4]` (R53). -/
def rCField (w : Word) : RegIdx := w.extractLsb' 4 3

/-- `func = w[3:0]` (R54). -/
def funcField (w : Word) : Func := w.extractLsb' 0 4

/-- `imm7 = w[6:0]` (R55). -/
def imm7Field (w : Word) : Imm7 := w.extractLsb' 0 7

/-- `imm13 = w[12:0]` (R56). -/
def imm13Field (w : Word) : Addr := w.extractLsb' 0 13

/-- Opcode 0's dispatch by function selector: 0 to 4 are the ALU operations, all of 5..15 are JR (R62, R64). -/
def kindOfFunc (func : Func) : Kind :=
  match func.toNat with
  | 0 => .add
  | 1 => .sub
  | 2 => .or
  | 3 => .and
  | 4 => .slt
  | _ => .jr

/-- Operation classification, a total function of `op` and, for opcode 0, `func` (R62). The last arm is opcode 7. -/
def kindOf (op : Opcode) (func : Func) : Kind :=
  match op.toNat with
  | 0 => kindOfFunc func
  | 1 => .addi
  | 2 => .j
  | 3 => .jal
  | 4 => .lw
  | 5 => .sw
  | 6 => .jeq
  | _ => .slti

/-- The instruction a word holds: its operation (R62) with the fields its format uses (R59). Total (R64). -/
def decode (w : Word) : Instr :=
  match kindOf (opField w) (funcField w) with
  | .add => .add (rAField w) (rBField w) (rCField w)
  | .sub => .sub (rAField w) (rBField w) (rCField w)
  | .or => .or (rAField w) (rBField w) (rCField w)
  | .and => .and (rAField w) (rBField w) (rCField w)
  | .slt => .slt (rAField w) (rBField w) (rCField w)
  | .jr => .jr (rAField w) (rBField w) (rCField w) (funcField w)
  | .addi => .addi (rAField w) (rBField w) (imm7Field w)
  | .j => .j (imm13Field w)
  | .jal => .jal (imm13Field w)
  | .lw => .lw (rAField w) (rBField w) (imm7Field w)
  | .sw => .sw (rAField w) (rBField w) (imm7Field w)
  | .jeq => .jeq (rAField w) (rBField w) (imm7Field w)
  | .slti => .slti (rAField w) (rBField w) (imm7Field w)

/-- The opcode map as mask and pattern rows (R63); JR has three. -/
def opcodeRows : List OpRow :=
  [ { kind := .add, pattern := 0x0000#16, mask := 0xE00F#16 },
    { kind := .sub, pattern := 0x0001#16, mask := 0xE00F#16 },
    { kind := .or, pattern := 0x0002#16, mask := 0xE00F#16 },
    { kind := .and, pattern := 0x0003#16, mask := 0xE00F#16 },
    { kind := .slt, pattern := 0x0004#16, mask := 0xE00F#16 },
    { kind := .jr, pattern := 0x0005#16, mask := 0xE00F#16 },
    { kind := .jr, pattern := 0x0006#16, mask := 0xE00E#16 },
    { kind := .jr, pattern := 0x0008#16, mask := 0xE008#16 },
    { kind := .addi, pattern := 0x2000#16, mask := 0xE000#16 },
    { kind := .j, pattern := 0x4000#16, mask := 0xE000#16 },
    { kind := .jal, pattern := 0x6000#16, mask := 0xE000#16 },
    { kind := .lw, pattern := 0x8000#16, mask := 0xE000#16 },
    { kind := .sw, pattern := 0xA000#16, mask := 0xE000#16 },
    { kind := .jeq, pattern := 0xC000#16, mask := 0xE000#16 },
    { kind := .slti, pattern := 0xE000#16, mask := 0xE000#16 } ]

/-- Whether a word matches a row of the opcode map (R63). -/
def OpRow.matchesWord (row : OpRow) (w : Word) : Bool := w &&& row.mask == row.pattern

/-- Lay out an RRR word: op, rA, rB, rC, func from bit 15 down (R59). -/
def encodeRRR (rA rB rC : RegIdx) (func : Func) : Word := 0#3 ++ rA ++ rB ++ rC ++ func

/-- Lay out an RRI word: op, rA, rB, imm7 from bit 15 down (R59). -/
def encodeRRI (op : Opcode) (rA rB : RegIdx) (imm7 : Imm7) : Word := op ++ rA ++ rB ++ imm7

/-- Lay out a J word: op, imm13 from bit 15 down (R59). -/
def encodeJ (op : Opcode) (imm13 : Addr) : Word := op ++ imm13

/-- The word of a well-formed instruction (R59, R63). -/
def encode : Instr → Word
  | .add rA rB rC => encodeRRR rA rB rC 0#4
  | .sub rA rB rC => encodeRRR rA rB rC 1#4
  | .or rA rB rC => encodeRRR rA rB rC 2#4
  | .and rA rB rC => encodeRRR rA rB rC 3#4
  | .slt rA rB rC => encodeRRR rA rB rC 4#4
  | .jr rA rB rC func => encodeRRR rA rB rC func
  | .addi rA rB imm7 => encodeRRI 1#3 rA rB imm7
  | .j imm13 => encodeJ 2#3 imm13
  | .jal imm13 => encodeJ 3#3 imm13
  | .lw rA rB imm7 => encodeRRI 4#3 rA rB imm7
  | .sw rA rB imm7 => encodeRRI 5#3 rA rB imm7
  | .jeq rA rB imm7 => encodeRRI 6#3 rA rB imm7
  | .slti rA rB imm7 => encodeRRI 7#3 rA rB imm7

/-- The instruction word whose low `nbits` bits are those of `w` and whose other bits are 0. -/
def tableWord (nbits w : Nat) : Word := BitVec.ofNat 16 (w % 2 ^ nbits)

/-- The instruction the decoder reads from an opcode-table word of `nbits` bits. An instruction is one 16-bit word
(R51), so a longer bit string is none (assumption log 12, DESIGN CHOICE, safe). -/
def decodeTableWord (nbits w : Nat) : Option Instr :=
  if nbits ≤ 16 then some (decode (tableWord nbits w)) else none

end Sys2Proof
end

