-- ==== Sys2Proof/Config.lean ====
section
/-! DEFINITION. What is fixed at construction (00_scope.md R6, R7: constants, never mutable state), and the few
values the spec leaves open. The core itself leaves none open (40_execution_cycle.md R84); the opaque constants
below belong to the Loader's and the Reporter's boundary only (assumption log 7 and 8). -/

namespace Sys2Proof

/-- R6 `NREG`: eight general registers. -/
abbrev Config.numRegs : Nat := 8

/-- R6 `MEMWORDS`: 8192 = 2^13 memory cells. -/
abbrev Config.memWords : Nat := 8192

/-- R6 `ZERO_REG`: the register hardwired to 0 (R21). -/
abbrev Config.zeroReg : RegIdx := 0#3

/-- R6 `LINK_REG`: the register that opcode 3 writes (R23, R94). -/
abbrev Config.linkReg : RegIdx := 7#3

/-- R137: how many memory cells the Reporter prints. -/
abbrev Config.reportCells : Nat := 128

/-- R137: how many memory cells the Reporter prints on a line. -/
abbrev Config.reportCellsPerLine : Nat := 8

/-- The Loader's three errors, raised only during loading and never during execution (70_reset_and_hazards.md R135,
60_exceptions.md R111). -/
inductive LoadError where
  /-- A line does not match the pattern. Raised by `Loader.readLines`. Safe: there is no run. -/
  | malformedLine
  /-- An address is not the next one in sequence. Raised by `Loader.readLines`. Safe: there is no run. -/
  | outOfSequenceAddress
  /-- More lines than memory words. Raised by `Loader.readLines`. Safe: there is no run. -/
  | programOverflow
deriving DecidableEq, Repr

/-- UNVERIFIED, free value (assumption log 7): the Reporter's header line, whose text the source does not give
(91_not_in_source.md, 70_reset_and_hazards.md). Safe: no proof can know it. -/
opaque Config.reportHeader : List Char

/-- UNVERIFIED, free value (assumption log 8): whether the Loader passes over this white space at the start of a line,
on which the source is silent (91_not_in_source.md). Safe: no proof can know it. -/
opaque Config.loaderPassesOver : List Char → Bool

/-- UNVERIFIED, free value (assumption log 8): what the Loader makes of a 16-character digit field that holds other
characters than 0 and 1, on which the source is silent (91_not_in_source.md): a malformed line (`none`) or a word.
Safe: no proof can know it. -/
opaque Config.loaderOpenField : List Char → Option Word

/-- UNVERIFIED, free value (assumption log 8): how the Loader answers a file of no lines, on which the source is
silent (91_not_in_source.md): `none` accepts it, `some` error rejects it. Safe: no proof can know it. -/
opaque Config.loaderEmptyFile : Option LoadError

end Sys2Proof
end

