-- ==== Sys2Proof/Machine/State.lean ====
section
/-! DEFINITION. The whole architectural state of the E20 core (10_state.md R20 to R34): program counter, register
file, unified memory, running/halted status, and nothing else (R29 to R32). Plain data. -/

namespace Sys2Proof.Machine

/-- The unified memory (10_state.md R28, 20_memory.md R35): the cells that differ from what an unlisted address reads
as, as pairs of word address and 16-bit word, addresses strictly rising. The cell is the spec's addressable unit, a
whole word; the core has no bytes (R36; assumption log 1, safe). -/
abbrev Memory := List (Nat × Word)

/-- The machine's state. -/
structure State where
  /-- Program counter: the word address of the instruction being executed (R25). -/
  pc : Addr
  /-- Register file R0..R7 (R20). Cell 0 is never written and `State.readReg` never reads it (R21, R24; assumption
  log 11). -/
  x : Vector Word Config.numRegs
  /-- Unified memory of 8192 words (R28). -/
  mem : Memory
  /-- Running/halted status: `false` = running, `true` = halted (R27). -/
  halted : Bool
deriving DecidableEq, Repr

/-- Faults of a step. The core raises no exception and its step has no fault outcome (60_exceptions.md R110), so
there is no constructor: that the machine does not fault holds by typing. Exact, hence safe. -/
inductive Fault
deriving DecidableEq, Repr

/-- Refusals of a step. -/
inductive Refusal where
  /-- Raised by `exec` for an instruction whose meaning is not written. Every instruction of this core has its
  meaning, so no arm raises it. Safe. -/
  | notModelled (mnemonic : String)
deriving DecidableEq, Repr

/-- The machine right after reset with the empty program image: pc 0, every register 0, running, every memory word 0
(10_state.md R33, 70_reset_and_hazards.md R130 to R132; assumption log 4). `State.boot` (HostInterface.lean) takes the
loaded image as a parameter. -/
def State.reset : State :=
  { pc := 0#13, x := Vector.replicate Config.numRegs 0#16, mem := [], halted := false }

end Sys2Proof.Machine
end

