-- ==== Sys2Proof/Machine/Memory.lean ====
section
/-! DEFINITION. The unified memory block's storage (20_memory.md R35 to R50): reading and writing one 16-bit word at
a 13-bit word address. Every address exists and is plain storage, so both operations are total (R38, R44). -/

namespace Sys2Proof.Machine

/-- What an address that is not listed reads as: 0, the reset contents of every word beyond the loaded image
(10_state.md R33). -/
def unlistedWord : Word := 0#16

/-- The word listed at key `k`, or what an unlisted address reads as. -/
def Memory.lookup (m : Memory) (k : Nat) : Word :=
  match m with
  | [] => unlistedWord
  | (k', v) :: rest => if k' = k then v else Memory.lookup rest k

/-- `MemRead(a, 1)` (00_scope.md R14). -/
def Memory.read (m : Memory) (a : Addr) : Word := Memory.lookup m a.toNat

/-- A memory without an entry for key `k`. -/
def Memory.erase (m : Memory) (k : Nat) : Memory := m.filter (fun c => c.1 != k)

/-- A memory with the cell `(k, v)` put before the first greater key. -/
def Memory.insert (m : Memory) (k : Nat) (v : Word) : Memory :=
  match m with
  | [] => [(k, v)]
  | (k', v') :: rest => if k < k' then (k, v) :: (k', v') :: rest else (k', v') :: Memory.insert rest k v

/-- `MemWrite(a, 1, v)` (00_scope.md R14). Writing the word an unlisted address reads as removes the entry. -/
def Memory.write (m : Memory) (a : Addr) (v : Word) : Memory :=
  if v = unlistedWord then Memory.erase m a.toNat else Memory.insert (Memory.erase m a.toNat) a.toNat v

/-- The canonical form: addresses below 8192 and strictly rising, and no entry equal to what an unlisted address
reads as. Equal memories are then equal data. -/
def Memory.wf : Memory → Bool
  | [] => true
  | (k, v) :: rest =>
    decide (k < Config.memWords) && v != unlistedWord && rest.all (fun c => decide (k < c.1)) && Memory.wf rest

/-- The memory that holds the words of an image at consecutive addresses from `base`, and 0 elsewhere. -/
def Memory.ofImageFrom (base : Nat) : List Word → Memory
  | [] => []
  | v :: rest =>
    if v = unlistedWord then Memory.ofImageFrom (base + 1) rest else (base, v) :: Memory.ofImageFrom (base + 1) rest

/-- The memory at the start of a run: word `a` of the image at address `a`, 0 beyond it (10_state.md R33,
70_reset_and_hazards.md R132, R134). -/
def Memory.ofImage (image : List Word) : Memory := Memory.ofImageFrom 0 image

end Sys2Proof.Machine
end

