-- ==== Sys2Proof/Machine/Numeric.lean ====
section
/-! DEFINITION. The numeric-width rules (00_scope.md R10 to R12): reading a bit pattern as an integer, widening a
field, and folding an exact integer result back into 16 or 13 bits. -/

namespace Sys2Proof.Machine

/-- `int(v)`: the unsigned integer value of a bit pattern (R11). -/
def int {n : Nat} (v : BitVec n) : Int := (v.toNat : Int)

/-- `signed16(v)`: `v` if `v < 32768`, else `v - 65536` (R10). -/
def signed16 (v : Word) : Int := if v.toNat < 32768 then int v else int v - 65536

/-- `sext(v7) = v7 - 128·v7[6]`, in -64..63 (R11, R57). -/
def sext (v7 : Imm7) : Int := int v7 - 128 * (if v7.getLsbD 6 then 1 else 0)

/-- `zext_16(v)` (R11). -/
def zext16 {n : Nat} (v : BitVec n) : Word := v.setWidth 16

/-- `sext_16(v7)`: `v7` if `v7[6] = 0`, `v7 + 0xFF80` if `v7[6] = 1` (R11). -/
def sext16 (v7 : Imm7) : Word := if v7.getLsbD 6 then zext16 v7 + 0xFF80#16 else zext16 v7

/-- `v[12:0]`: the low 13 bits of a word, as an address (R9). -/
def low13 (v : Word) : Addr := v.extractLsb' 0 13

/-- `wrap16(n) = n mod 65536` (R12): the mathematical modulus. -/
def wrap16 (n : Int) : Word := BitVec.ofInt 16 n

/-- `wrap13(n) = n mod 8192` (R12): the mathematical modulus for every address, not one fold (90_conflicts.md C1,
92_eei_decisions.md D3; assumption log 3). -/
def wrap13 (n : Int) : Addr := BitVec.ofInt 13 n

/-- The fold "by adding or subtracting `m` exactly once" of an integer into [0, m) that the source's helper performs
(R12, 90_conflicts.md C1). The machine does not use it; claims compare it with the modulus. -/
def foldOnce (m n : Int) : Int := if n < 0 then n + m else if m ≤ n then n - m else n

end Sys2Proof.Machine
end

