-- ==== Sys2Proof/Machine/Ops.lean ====
section
/-! DEFINITION. The named operations over the state that the instruction meanings share (00_scope.md R13 to R15,
40_execution_cycle.md R71 to R75). There is no operation that takes an exception or returns from one: the core has no
exception, interrupt, trap entry or trap return (60_exceptions.md R110 to R115). -/

namespace Sys2Proof.Machine

/-- `x[i]`: register `i`; R0 reads as 0 (10_state.md R21, R24; 00_scope.md R13). -/
def State.readReg (s : State) (i : RegIdx) : Word :=
  if i = Config.zeroReg then 0#16 else s.x[i.toNat]'i.isLt

/-- `x[i] <- v`: the write is discarded when `i = 0` (10_state.md R21, 40_execution_cycle.md R74, 00_scope.md R13). -/
def State.writeReg (s : State) (i : RegIdx) (v : Word) : State :=
  if i = Config.zeroReg then s else { s with x := s.x.set i.toNat v i.isLt }

/-- `M[a]` (00_scope.md R14, 20_memory.md R44). -/
def State.memRead (s : State) (a : Addr) : Word := s.mem.read a

/-- `MemWrite(a, 1, v)` (00_scope.md R14, 20_memory.md R44). -/
def State.memWrite (s : State) (a : Addr) (v : Word) : State := { s with mem := s.mem.write a v }

/-- `pc <- t` (00_scope.md R15). -/
def State.setPc (s : State) (t : Addr) : State := { s with pc := t }

/-- `halt`: set the halted status (00_scope.md R15, 10_state.md R27). -/
def State.halt (s : State) : State := { s with halted := true }

/-- `seq = wrap13(int(pc) + 1)`: the next address in sequence (40_execution_cycle.md R75, 10_state.md R26). -/
def seqPc (pc : Addr) : Addr := wrap13 (int pc + 1)

/-- `pc <- wrap13(pc + 1)`: what every instruction that does not transfer control does last (10_state.md R26). -/
def State.advance (s : State) : State := s.setPc (seqPc s.pc)

/-- Write a result to its destination register and move to the next instruction (40_execution_cycle.md R70, R74). -/
def State.writeBack (s : State) (dest : RegIdx) (v : Word) : State := (s.writeReg dest v).advance

/-- Fetch the single word `M[pc]` (40_execution_cycle.md R71); it never fails. -/
def State.fetch (s : State) : Word := s.memRead s.pc

end Sys2Proof.Machine
end

