-- ==== Sys2Proof/Machine/Operands.lean ====
section
/-! DEFINITION. The operand forms: the one addressing mode (44_load_store.md, 20_memory.md R39) and the targets of the
control transfers (40_execution_cycle.md R75). Registers and immediates are read by `State.readReg`, `sext` and
`zext16`. Each form is a function of the state before the instruction (R72). -/

namespace Sys2Proof.Machine

/-- The effective address `ea = wrap13(int(x[rA]) + sext(imm7))` of a load or store (20_memory.md R39). -/
def effectiveAddress (s : State) (rA : RegIdx) (imm7 : Imm7) : Addr := wrap13 (int (s.readReg rA) + sext imm7)

/-- The target `wrap13(int(pc) + 1 + sext(imm7))` of a taken JEQ (43_control_transfer.md R95). -/
def branchTarget (pc : Addr) (imm7 : Imm7) : Addr := wrap13 (int pc + 1 + sext imm7)

/-- The target `x[rA][12:0]` of a JR (43_control_transfer.md R92). -/
def registerTarget (s : State) (rA : RegIdx) : Addr := low13 (s.readReg rA)

/-- The link value `zext_16(wrap13(int(pc) + 1))` of a JAL (43_control_transfer.md R94). -/
def linkValue (pc : Addr) : Word := zext16 (seqPc pc)

end Sys2Proof.Machine
end

