-- ==== Sys2Proof/Machine/ControlTransfer.lean ====
section
/-! DEFINITION. The control transfers (43_control_transfer.md R92 to R95). Only J can halt (40_execution_cycle.md
R79); there are no delay slots (R77). -/

namespace Sys2Proof.Machine

open Host (Outcome)

/-- JR (R92): `pc <- x[rA][12:0]`. The other fields are ignored (30_encoding.md R65); no self-jump halts (R79). -/
def execJr (rA _rB _rC : RegIdx) (_func : Func) (s : State) : Outcome State Fault Refusal :=
  .next (s.setPc (registerTarget s rA))

/-- J (R93): `pc <- imm13`, and halt when the target is the J's own address (40_execution_cycle.md R79). -/
def execJ (imm13 : Addr) (s : State) : Outcome State Fault Refusal :=
  .next ((if imm13 = s.pc then s.halt else s).setPc imm13)

/-- JAL (R94): `x[7] <- zext_16(wrap13(int(pc) + 1))`, `pc <- imm13`; never halts. -/
def execJal (imm13 : Addr) (s : State) : Outcome State Fault Refusal :=
  .next ((s.writeReg Config.linkReg (linkValue s.pc)).setPc imm13)

/-- JEQ (R95): branch relative to `pc + 1` when the two registers hold the same pattern, else fall through. -/
def execJeq (rA rB : RegIdx) (imm7 : Imm7) (s : State) : Outcome State Fault Refusal :=
  .next (if equalPatterns (s.readReg rA) (s.readReg rB) then s.setPc (branchTarget s.pc imm7) else s.advance)

end Sys2Proof.Machine
end

