-- ==== Sys2Proof/Machine/Immediate.lean ====
section
/-! DEFINITION. The immediate operations, opcodes 1 and 7 (42_immediate.md R90, R91). Opcode 1 reads its immediate as
signed and opcode 7 as unsigned: a deliberate difference. -/

namespace Sys2Proof.Machine

open Host (Outcome)

/-- ADDI (R90): `x[rB] <- wrap16(int(x[rA]) + sext(imm7))`. -/
def execAddi (rA rB : RegIdx) (imm7 : Imm7) (s : State) : Outcome State Fault Refusal :=
  .next (s.writeBack rB (wrap16 (int (s.readReg rA) + sext imm7)))

/-- SLTI (R91): 1 if `x[rA] < imm7` with the immediate zero-extended, unsigned, else 0. -/
def execSlti (rA rB : RegIdx) (imm7 : Imm7) (s : State) : Outcome State Fault Refusal :=
  .next (s.writeBack rB (setLessUnsigned (s.readReg rA) (zext16 imm7)))

end Sys2Proof.Machine
end

