-- ==== Sys2Proof/Machine/LoadStore.lean ====
section
/-! DEFINITION. The load and the store, opcodes 4 and 5 (44_load_store.md R96, R97). -/

namespace Sys2Proof.Machine

open Host (Outcome)

/-- LW (R96): `x[rB] <- MemRead(ea, 1)`, the whole word; the address uses the base before the write (R72). -/
def execLw (rA rB : RegIdx) (imm7 : Imm7) (s : State) : Outcome State Fault Refusal :=
  .next (s.writeBack rB (s.memRead (effectiveAddress s rA imm7)))

/-- SW (R97): `MemWrite(ea, 1, x[rB])`, the whole word. -/
def execSw (rA rB : RegIdx) (imm7 : Imm7) (s : State) : Outcome State Fault Refusal :=
  .next (s.memWrite (effectiveAddress s rA imm7) (s.readReg rB)).advance

end Sys2Proof.Machine
end

