-- ==== Sys2Proof/Machine/RegisterRegister.lean ====
section
/-! DEFINITION. The register-register operations, opcode 0 with func 0 to 4 (41_register_register.md R85 to R89). -/

namespace Sys2Proof.Machine

open Host (Outcome)

/-- ADD (R85): `x[rC] <- wrap16(int(x[rA]) + int(x[rB]))`. -/
def execAdd (rA rB rC : RegIdx) (s : State) : Outcome State Fault Refusal :=
  .next (s.writeBack rC (wrap16 (int (s.readReg rA) + int (s.readReg rB))))

/-- SUB (R86): `x[rC] <- wrap16(int(x[rA]) - int(x[rB]))`. -/
def execSub (rA rB rC : RegIdx) (s : State) : Outcome State Fault Refusal :=
  .next (s.writeBack rC (wrap16 (int (s.readReg rA) - int (s.readReg rB))))

/-- OR (R87): bit by bit on 16 bits. -/
def execOr (rA rB rC : RegIdx) (s : State) : Outcome State Fault Refusal :=
  .next (s.writeBack rC (s.readReg rA ||| s.readReg rB))

/-- AND (R88): bit by bit on 16 bits. -/
def execAnd (rA rB rC : RegIdx) (s : State) : Outcome State Fault Refusal :=
  .next (s.writeBack rC (s.readReg rA &&& s.readReg rB))

/-- SLT (R89): 1 if `x[rA] < x[rB]` as unsigned integers, else 0. -/
def execSlt (rA rB rC : RegIdx) (s : State) : Outcome State Fault Refusal :=
  .next (s.writeBack rC (setLessUnsigned (s.readReg rA) (s.readReg rB)))

end Sys2Proof.Machine
end

