-- ==== Sys2Proof/Machine/Step.lean ====
section
/-! DEFINITION. One step (40_execution_cycle.md R70, R80). -/

namespace Sys2Proof.Machine

/-- One step of a running core fetches `M[pc]`, decodes it and executes it (R70). A halted core fetches nothing and
changes nothing (R80, 60_exceptions.md R121): the spec gives it no step, and the model answers the same state
(assumption log 2, DESIGN CHOICE, unsafe for claims that count steps after halt). -/
def step (s : State) : Host.Outcome State Fault Refusal :=
  if s.halted then .next s else exec (decode s.fetch) s

/-- `s` with the instruction `w` (of `nbits` bits, the bits above 0) stored where the next step fetches: at `pc`, with
the core running, since a halted core fetches nothing. It stands for the host's load of a program (assumption
log 4). -/
def State.withFetchWord (s : State) (nbits w : Nat) : State :=
  { s.memWrite s.pc (tableWord nbits w) with halted := false }

end Sys2Proof.Machine
end

