-- ==== Sys2Proof/Machine/Alu.lean ====
section
/-! DEFINITION. The ALU block (40_execution_cycle.md R81, R82). The instruction meanings follow their own rules; the
datapath of Blocks.lean goes through this block. -/

namespace Sys2Proof.Machine

/-- The ALU's operation input `aop` (R81). -/
inductive AluOp where
  | add | sub | or | and | sltu
deriving DecidableEq, Repr

/-- The ALU's outputs (R81). -/
structure AluOut where
  result : Word
  eq : Bool
deriving DecidableEq, Repr

/-- The ALU's `result` output (R81). -/
def aluResult (aop : AluOp) (p q : Word) : Word :=
  match aop with
  | .add => wrap16 (int p + int q)
  | .sub => wrap16 (int p - int q)
  | .or => p ||| q
  | .and => p &&& q
  | .sltu => setLessUnsigned p q

/-- The ALU block: its result for the operation, and `eq` for any operation (R81). -/
def alu (aop : AluOp) (p q : Word) : AluOut := { result := aluResult aop p q, eq := equalPatterns p q }

end Sys2Proof.Machine
end

