-- ==== Sys2Proof/Machine/Blocks.lean ====
section
/-! DEFINITION. The hardware blocks with the ports the spec gives them (00_scope.md R3): register file (10_state.md
R24), memory (20_memory.md R47), decoder (30_encoding.md R60, R61), branch/halt control unit (40_execution_cycle.md
R75, R76), and their composition into one step (R70). The machine is `step`; this datapath restates it and a claim
says that the two agree. Where a port is driven but not used (a write address with the enable 0, the ALU of a J), any
value is right and the datapath drives one (assumption log 9, DESIGN CHOICE, safe). -/

namespace Sys2Proof.Machine

/-- The decoder's outputs, every one driven for every word (30_encoding.md R60). -/
structure DecoderOut where
  op : Opcode
  rA : RegIdx
  rB : RegIdx
  rC : RegIdx
  func : Func
  simm : Word
  uimm : Word
  imm13 : Addr
  kind : Kind
deriving DecidableEq, Repr

/-- The decoder block: `decode_fields` and `kind` (30_encoding.md R60 to R62). -/
def decoderBlock (w : Word) : DecoderOut :=
  { op := opField w, rA := rAField w, rB := rBField w, rC := rCField w, func := funcField w,
    simm := sext16 (imm7Field w), uimm := zext16 (imm7Field w), imm13 := imm13Field w,
    kind := kindOf (opField w) (funcField w) }

/-- A combinational read port of the register file: 0 for index 0 (10_state.md R24). -/
def regFileRead (x : Vector Word Config.numRegs) (addr : RegIdx) : Word :=
  if addr = 0#3 then 0#16 else x[addr.toNat]'addr.isLt

/-- The register file at the end of a step: its one write port, ignored for index 0 (10_state.md R24). -/
def regFileWrite (x : Vector Word Config.numRegs) (wEn : Bool) (wAddr : RegIdx) (wData : Word) :
    Vector Word Config.numRegs :=
  if wEn && wAddr != 0#3 then x.set wAddr.toNat wData wAddr.isLt else x

/-- The memory at the end of a step: its data port's write (20_memory.md R47). -/
def memoryWrite (m : Memory) (dWe : Bool) (dAddr : Addr) (dWdata : Word) : Memory :=
  if dWe then m.write dAddr dWdata else m

/-- Which ALU operation an operation uses (40_execution_cycle.md R81); the jumps use none. -/
def aluOpOf : Kind → AluOp
  | .add => .add
  | .sub => .sub
  | .or => .or
  | .and => .and
  | .slt => .sltu
  | .slti => .sltu
  | .addi => .add
  | .lw => .add
  | .sw => .add
  | .jr => .add
  | .j => .add
  | .jal => .add
  | .jeq => .add

/-- The ALU operand `q`: `x[rB]`, `simm` or `uimm` (40_execution_cycle.md R81). -/
def aluOperand (d : DecoderOut) (rbData : Word) : Word :=
  match d.kind with
  | .add => rbData
  | .sub => rbData
  | .or => rbData
  | .and => rbData
  | .slt => rbData
  | .jeq => rbData
  | .addi => d.simm
  | .lw => d.simm
  | .sw => d.simm
  | .slti => d.uimm
  | .jr => rbData
  | .j => rbData
  | .jal => rbData

/-- The source of the written-back value (40_execution_cycle.md R76). -/
inductive WbSel where
  | aluResult | memData | seq
deriving DecidableEq, Repr

/-- The control unit's outputs (40_execution_cycle.md R76). -/
structure ControlOut where
  npc : Addr
  haltNow : Bool
  rfWEn : Bool
  rfWAddr : RegIdx
  wbSel : WbSel
  dWe : Bool
deriving DecidableEq, Repr

/-- The next-PC table (40_execution_cycle.md R75), from the control unit's inputs. -/
def controlNextPc (d : DecoderOut) (pc : Addr) (raData : Word) (eq : Bool) : Addr :=
  match d.kind with
  | .jr => low13 raData
  | .j => d.imm13
  | .jal => d.imm13
  | .jeq => if eq then wrap13 (int pc + 1 + signed16 d.simm) else wrap13 (int pc + 1)
  | .add => wrap13 (int pc + 1)
  | .sub => wrap13 (int pc + 1)
  | .or => wrap13 (int pc + 1)
  | .and => wrap13 (int pc + 1)
  | .slt => wrap13 (int pc + 1)
  | .addi => wrap13 (int pc + 1)
  | .slti => wrap13 (int pc + 1)
  | .lw => wrap13 (int pc + 1)
  | .sw => wrap13 (int pc + 1)

/-- The write destination: rC, rB or the fixed 7; none for JR, J, SW, JEQ (40_execution_cycle.md R74). -/
def controlDestination (d : DecoderOut) : Option RegIdx :=
  match d.kind with
  | .add => some d.rC
  | .sub => some d.rC
  | .or => some d.rC
  | .and => some d.rC
  | .slt => some d.rC
  | .addi => some d.rB
  | .slti => some d.rB
  | .lw => some d.rB
  | .jal => some 7#3
  | .jr => none
  | .j => none
  | .sw => none
  | .jeq => none

/-- The branch/halt control unit (40_execution_cycle.md R76). -/
def controlBlock (d : DecoderOut) (pc : Addr) (raData : Word) (eq : Bool) : ControlOut :=
  { npc := controlNextPc d pc raData eq,
    haltNow := d.kind == .j && d.imm13 == pc,
    rfWEn := (controlDestination d).isSome,
    rfWAddr := (controlDestination d).getD 0#3,
    wbSel := if d.kind = .lw then .memData else if d.kind = .jal then .seq else .aluResult,
    dWe := d.kind == .sw }

/-- The written-back value (40_execution_cycle.md R76). -/
def writeBackValue (sel : WbSel) (result memData : Word) (pc : Addr) : Word :=
  match sel with
  | .aluResult => result
  | .memData => memData
  | .seq => zext16 (wrap13 (int pc + 1))

/-- One step of a running core as the six blocks perform it (40_execution_cycle.md R70): fetch port, decoder, two
register reads, ALU, control unit, memory data port, then every write at the end of the step. -/
def datapath (s : State) : State :=
  let d := decoderBlock (s.mem.read s.pc)
  let raData := regFileRead s.x d.rA
  let rbData := regFileRead s.x d.rB
  let out := alu (aluOpOf d.kind) raData (aluOperand d rbData)
  let dAddr := low13 out.result
  let c := controlBlock d s.pc raData out.eq
  { pc := c.npc,
    x := regFileWrite s.x c.rfWEn c.rfWAddr (writeBackValue c.wbSel out.result (s.mem.read dAddr) s.pc),
    mem := memoryWrite s.mem c.dWe dAddr rbData,
    halted := c.haltNow || s.halted }

end Sys2Proof.Machine
end

