-- ==== Sys2Proof/Machine/HostInterface.lean ====
section
/-! DEFINITION. What the host can do to the core (70_reset_and_hazards.md R130 to R138): the reset input, loading a
program before the run, and reading the state after halt. None of these is a step of the core, and the host has no
move during a run (R136). The Loader and the Reporter are outside the core (00_scope.md R5); what follows is their
boundary. -/

namespace Sys2Proof.Machine

/-- The reset input: pc, registers and halted status to their reset values, from any state, memory unchanged (R130,
R132; 92_eei_decisions.md D9; assumption log 5). -/
def State.resetInput (s : State) : State :=
  { pc := 0#13, x := Vector.replicate Config.numRegs 0#16, mem := s.mem, halted := false }

/-- The state a run starts from: reset, with a program image at addresses 0.. and 0 beyond it (R130 to R132, R134). -/
def State.boot (image : List Word) : State := { State.reset with mem := Memory.ofImage image }

/-- What is left of `text` after the characters of `lead`, if it begins with them. -/
def Loader.after (lead text : List Char) : Option (List Char) :=
  match lead, text with
  | [], rest => some rest
  | c :: lead', c' :: rest => if c = c' then Loader.after lead' rest else none
  | _ :: _, [] => none

/-- Read a decimal numeral: its value on top of `acc`, and the rest of the text. -/
def Loader.decimal (acc : Nat) : List Char → Nat × List Char
  | [] => (acc, [])
  | c :: rest => if c.isDigit then Loader.decimal (acc * 10 + (c.toNat - 48)) rest else (acc, c :: rest)

/-- Read `<address>`: a decimal numeral of at least one digit. -/
def Loader.address (text : List Char) : Option (Nat × List Char) :=
  match text with
  | [] => none
  | c :: _ => if c.isDigit then some (Loader.decimal 0 text) else none

/-- The value of a list of binary digits, the first the most significant (20_memory.md R37, 92_eei_decisions.md D6);
`none` when a character is not 0 or 1. -/
def Loader.binary (acc : Nat) : List Char → Option Nat
  | [] => some acc
  | c :: rest =>
    if c = '0' then Loader.binary (acc * 2) rest
    else if c = '1' then Loader.binary (acc * 2 + 1) rest
    else none

/-- The parts of a line of the form `ram[<address>] = 16'b<16 characters>;`, trailing text ignored (R135). -/
def Loader.lineParts (text : List Char) : Option (Nat × List Char) := do
  let t ← Loader.after ['r', 'a', 'm', '['] text
  let (a, t) ← Loader.address t
  let t ← Loader.after [']', ' ', '=', ' ', '1', '6', '\'', 'b'] t
  let digits := t.take 16
  if digits.length = 16 then
    let _ ← Loader.after [';'] (t.drop 16)
    pure (a, digits)
  else none

/-- The characters taken as white space at the start of a line (assumption log 8). -/
def Loader.whiteSpace : List Char := [' ', '\t', '\n', '\x0b', '\x0c', '\r']

/-- The line that is held against the pattern: `text` itself, or what follows the white space it begins with; `none`
when the Loader does not pass over that white space, which the source leaves open (91_not_in_source.md; assumption
log 8). -/
def Loader.body (text : List Char) : Option (List Char) :=
  let white := text.takeWhile Loader.whiteSpace.contains
  if white.isEmpty || Config.loaderPassesOver white then some (text.dropWhile Loader.whiteSpace.contains) else none

/-- The word of a 16-character digit field, bit 15 first (R135); a field of other characters than 0 and 1 is left open
(91_not_in_source.md; assumption log 8). -/
def Loader.fieldWord (digits : List Char) : Option Word :=
  match Loader.binary 0 digits with
  | some v => some (BitVec.ofNat 16 v)
  | none => Config.loaderOpenField digits

/-- The address and word of one line (R135); `none` for a malformed line. -/
def Loader.parseLine (text : List Char) : Option (Nat × Word) := do
  let line ← Loader.body text
  let (a, digits) ← Loader.lineParts line
  let v ← Loader.fieldWord digits
  pure (a, v)

/-- Read the lines in order, the next address being `next`; abort at the first line that is malformed, out of
sequence or beyond the memory's 8192 words (R134, R135). -/
def Loader.readLines (next : Nat) : List (List Char) → Except LoadError (List Word)
  | [] => .ok []
  | text :: rest =>
    match Loader.parseLine text with
    | none => .error .malformedLine
    | some (a, v) =>
      if a ≠ next then .error .outOfSequenceAddress
      else if Config.memWords ≤ next then .error .programOverflow
      else
        match Loader.readLines (next + 1) rest with
        | .error e => .error e
        | .ok words => .ok (v :: words)

/-- The Loader: the program image of a file's lines, or the error that ends loading (R134, R135). The answer for a
file of no lines is a free value (assumption log 8). -/
def Loader.load (lines : List (List Char)) : Except LoadError (List Word) :=
  match lines with
  | [] =>
    match Config.loaderEmptyFile with
    | none => .ok []
    | some e => .error e
  | _ :: _ => Loader.readLines 0 lines

/-- Load a program file and release the core from reset; a file the Loader rejects has no run (R135). -/
def hostBoot (lines : List (List Char)) : Except LoadError State := (Loader.load lines).map State.boot

/-- What the host reads of a halted core: pc, registers R0..R7 in order, and the memory (R137, R138). -/
structure FinalState where
  pc : Addr
  registers : List Word
  mem : Memory
deriving DecidableEq, Repr

/-- The host's reading of the state: the run's result once the core has halted, nothing while it runs (R136 to
R138). -/
def hostRead (s : State) : Option FinalState :=
  if s.halted then
    some { pc := s.pc, registers := (List.range Config.numRegs).map (fun i => s.readReg (BitVec.ofNat 3 i)), mem := s.mem }
  else none

/-- What the Reporter prints (R137): a header line, a line per register, and lines of memory cells. The layout of a
register line beyond its index and its padded value is not given, so the two stay apart (assumption log 7). -/
structure Report where
  header : List Char
  registers : List (Nat × List Char)
  memoryLines : List (List Char)
deriving DecidableEq, Repr

/-- A register's decimal value right-justified to 5 characters (R137). -/
def Report.decimal5 (v : Word) : List Char := (Nat.toDigits 10 v.toNat).leftpad 5 ' '

/-- A memory cell as 4 lowercase hexadecimal digits (R137). -/
def Report.hex4 (v : Word) : List Char := (Nat.toDigits 16 v.toNat).leftpad 4 '0'

/-- One line of memory cells from address `base`, separated by spaces (R137). -/
def Report.memoryLine (m : Memory) (base : Nat) : List Char :=
  List.intercalate [' ']
    ((List.range Config.reportCellsPerLine).map (fun k => Report.hex4 (m.lookup (base + k))))

/-- The Reporter's rendering of a final state: every register, and the first 128 memory cells 8 to a line (R137). -/
def report (f : FinalState) : Report :=
  { header := Config.reportHeader,
    registers := (List.range f.registers.length).zip (f.registers.map Report.decimal5),
    memoryLines := (List.range (Config.reportCells / Config.reportCellsPerLine)).map
      (fun line => Report.memoryLine f.mem (line * Config.reportCellsPerLine)) }

end Sys2Proof.Machine
end

