-- ==== Sys2Proof/Safety.lean ====
section
/-! DEFINITION. What counts as a good state and a finished run, and the words in which claims speak of what an
instruction changes and leaves unchanged. -/

namespace Sys2Proof.Machine

/-- The invariant of every reachable state (10_state.md R34): R0's stored value is 0 and the memory is in canonical
form (cells below 8192, so every listed cell exists). The ranges of R34 hold by the types' widths. -/
def State.inv (s : State) : Bool := s.x[0] == 0#16 && s.mem.wf

/-- `t` has value `v` in register `dest`, if `dest` is not R0, and every other register as in `s`. -/
def RegistersAfter (s t : State) (dest : RegIdx) (v : Nat) : Prop :=
  ∀ r : RegIdx, (t.readReg r).toNat = if r = dest ∧ r ≠ 0#3 then v else (s.readReg r).toNat

/-- Every register reads in `t` as in `s`. -/
def RegistersUnchanged (s t : State) : Prop := ∀ r : RegIdx, t.readReg r = s.readReg r

/-- `t` has the word `v` at address `a` and every other word as in `s`. -/
def MemoryAfter (s t : State) (a : Addr) (v : Word) : Prop :=
  ∀ b : Addr, t.memRead b = if b = a then v else s.memRead b

/-- Every word of memory reads in `t` as in `s`. -/
def MemoryUnchanged (s t : State) : Prop := ∀ a : Addr, t.memRead a = s.memRead a

/-- The program counter of `t` is one past that of `s`, modulo 8192. -/
def PcSequential (s t : State) : Prop := t.pc.toNat = (s.pc.toNat + 1) % 8192

/-- The register an instruction writes (40_execution_cycle.md R74): rC, rB, the fixed R7 of JAL, or none. -/
def writtenRegister : Instr → Option RegIdx
  | .add _ _ rC => some rC
  | .sub _ _ rC => some rC
  | .or _ _ rC => some rC
  | .and _ _ rC => some rC
  | .slt _ _ rC => some rC
  | .addi _ rB _ => some rB
  | .slti _ rB _ => some rB
  | .lw _ rB _ => some rB
  | .jal _ => some 7#3
  | .jr _ _ _ _ => none
  | .j _ => none
  | .sw _ _ _ => none
  | .jeq _ _ _ => none

/-- The registers an instruction names in a field and reads (10_state.md R23; 41 to 44). -/
def readRegisters : Instr → List RegIdx
  | .add rA rB _ => [rA, rB]
  | .sub rA rB _ => [rA, rB]
  | .or rA rB _ => [rA, rB]
  | .and rA rB _ => [rA, rB]
  | .slt rA rB _ => [rA, rB]
  | .addi rA _ _ => [rA]
  | .slti rA _ _ => [rA]
  | .lw rA _ _ => [rA]
  | .sw rA rB _ => [rA, rB]
  | .jeq rA rB _ => [rA, rB]
  | .jr rA _ _ _ => [rA]
  | .j _ => []
  | .jal _ => []

/-- The decimal digit characters, that of digit `d` at index `d`. -/
def decimalCharacters : List Char := ['0', '1', '2', '3', '4', '5', '6', '7', '8', '9']

/-- The lowercase hexadecimal digit characters, that of digit `d` at index `d`. -/
def hexCharacters : List Char := decimalCharacters ++ ['a', 'b', 'c', 'd', 'e', 'f']

/-- The number written by the digits `digits` in base 10, the first digit the most significant: the sum of each digit
times its power of ten. -/
def decimalValue (digits : List Nat) : Nat :=
  ((List.range digits.length).map (fun j => digits.getD j 0 * 10 ^ (digits.length - 1 - j))).sum

/-- `text` writes `n` in the base that has `characters` as its digits, most significant first, with all of `n`: its
character `j` is that of the digit of `n` at that place, and `n` has no digit beyond it. -/
def IsNumeral (characters : List Char) (n : Nat) (text : List Char) : Prop :=
  text ≠ [] ∧ n < characters.length ^ text.length ∧
  ∀ j, j < text.length →
    text[j]? = characters[n / characters.length ^ (text.length - 1 - j) % characters.length]?

/-- The run from `s` has ended after `n` steps in the state `t` (70_reset_and_hazards.md R138): `n` steps lead to `t`,
which is halted. -/
def FinishesIn (n : Nat) (s t : State) : Prop := Sys2Proof.core.run n s = .next t ∧ t.halted = true

end Sys2Proof.Machine
end

