-- ==== Sys2Proof/Certificates/Slice0/Obligations.lean ====
section
/-! DEFINITION. The statements for the provers. Each is about every state or every word unless its docstring says
otherwise; the values are given as arithmetic on natural numbers and integers, not through the model's own folds. -/

open Sys2Proof Sys2Proof.Machine

/-! ## Reset and boot -/

/-- R33, R131: at the start of a run pc is 0, every register 0, the core running, word `a` of the image at address `a`
and 0 beyond it; the first step runs the word at address 0. -/
def Obligations.BootHoldsImageAndZeroRegisters : Prop :=
  ∀ image : List Word, image.length ≤ 8192 →
    (State.boot image).pc.toNat = 0 ∧
    (∀ r : RegIdx, (State.boot image).readReg r = 0#16) ∧
    (State.boot image).halted = false ∧
    (∀ a : Addr, a.toNat < image.length → some ((State.boot image).memRead a) = image[a.toNat]?) ∧
    (∀ a : Addr, image.length ≤ a.toNat → (State.boot image).memRead a = 0#16) ∧
    step (State.boot image) = exec (decode ((State.boot image).memRead 0#13)) (State.boot image)

/-- The model's choice (assumption log 4): the reset state of the host's interface is the boot of the empty image, so
pc, every register and every memory word read 0 and the core runs. -/
def Obligations.ResetIsBootOfEmptyImage : Prop :=
  State.reset = State.boot [] ∧ State.reset.pc.toNat = 0 ∧ State.reset.halted = false ∧
    (∀ r : RegIdx, State.reset.readReg r = 0#16) ∧ (∀ a : Addr, State.reset.memRead a = 0#16)

/-- The spec's own decision (92_eei_decisions.md D9, in R130; assumption log 5): the reset input, from any state, halted ones among them, gives pc 0, every
register 0 and a running core, and leaves every memory word as it was. -/
def Obligations.ResetInputFromAnyState : Prop :=
  ∀ s : State, s.resetInput.pc.toNat = 0 ∧ (∀ r : RegIdx, s.resetInput.readReg r = 0#16) ∧
    s.resetInput.halted = false ∧ MemoryUnchanged s s.resetInput

/-! ## The thirteen operations: encoding, result and frame -/

/-- R85: the words of ADD, its result and its frame. -/
def Obligations.AddWritesSumModulo65536 : Prop :=
  (∀ w : Word, w &&& 0xE00F#16 = 0x0000#16 →
    decode w = .add (w.extractLsb' 10 3) (w.extractLsb' 7 3) (w.extractLsb' 4 3)) ∧
  ∀ (s : State) (rA rB rC : RegIdx), ∃ t, exec (.add rA rB rC) s = .next t ∧
    RegistersAfter s t rC (((s.readReg rA).toNat + (s.readReg rB).toNat) % 65536) ∧
    PcSequential s t ∧ MemoryUnchanged s t ∧ t.halted = s.halted

/-- R86: the words of SUB, its result and its frame. -/
def Obligations.SubWritesDifferenceModulo65536 : Prop :=
  (∀ w : Word, w &&& 0xE00F#16 = 0x0001#16 →
    decode w = .sub (w.extractLsb' 10 3) (w.extractLsb' 7 3) (w.extractLsb' 4 3)) ∧
  ∀ (s : State) (rA rB rC : RegIdx), ∃ t, exec (.sub rA rB rC) s = .next t ∧
    RegistersAfter s t rC ((((s.readReg rA).toNat : Int) - ((s.readReg rB).toNat : Int)) % 65536).toNat ∧
    PcSequential s t ∧ MemoryUnchanged s t ∧ t.halted = s.halted

/-- R87: the words of OR, its result bit by bit and its frame. -/
def Obligations.OrWritesBitwiseOr : Prop :=
  (∀ w : Word, w &&& 0xE00F#16 = 0x0002#16 →
    decode w = .or (w.extractLsb' 10 3) (w.extractLsb' 7 3) (w.extractLsb' 4 3)) ∧
  ∀ (s : State) (rA rB rC : RegIdx), ∃ t v, exec (.or rA rB rC) s = .next t ∧
    (∀ k, k < 16 → v.getLsbD k = ((s.readReg rA).getLsbD k || (s.readReg rB).getLsbD k)) ∧
    RegistersAfter s t rC (v : Word).toNat ∧
    PcSequential s t ∧ MemoryUnchanged s t ∧ t.halted = s.halted

/-- R88: the words of AND, its result bit by bit and its frame. -/
def Obligations.AndWritesBitwiseAnd : Prop :=
  (∀ w : Word, w &&& 0xE00F#16 = 0x0003#16 →
    decode w = .and (w.extractLsb' 10 3) (w.extractLsb' 7 3) (w.extractLsb' 4 3)) ∧
  ∀ (s : State) (rA rB rC : RegIdx), ∃ t v, exec (.and rA rB rC) s = .next t ∧
    (∀ k, k < 16 → v.getLsbD k = ((s.readReg rA).getLsbD k && (s.readReg rB).getLsbD k)) ∧
    RegistersAfter s t rC (v : Word).toNat ∧
    PcSequential s t ∧ MemoryUnchanged s t ∧ t.halted = s.halted

/-- R89: the words of SLT, its result and its frame. -/
def Obligations.SltWritesUnsignedLess : Prop :=
  (∀ w : Word, w &&& 0xE00F#16 = 0x0004#16 →
    decode w = .slt (w.extractLsb' 10 3) (w.extractLsb' 7 3) (w.extractLsb' 4 3)) ∧
  ∀ (s : State) (rA rB rC : RegIdx), ∃ t, exec (.slt rA rB rC) s = .next t ∧
    RegistersAfter s t rC (if (s.readReg rA).toNat < (s.readReg rB).toNat then 1 else 0) ∧
    PcSequential s t ∧ MemoryUnchanged s t ∧ t.halted = s.halted

/-- R90: the words of ADDI, its result and its frame. -/
def Obligations.AddiWritesSumWithSignedImmediate : Prop :=
  (∀ w : Word, w &&& 0xE000#16 = 0x2000#16 →
    decode w = .addi (w.extractLsb' 10 3) (w.extractLsb' 7 3) (w.extractLsb' 0 7)) ∧
  ∀ (s : State) (rA rB : RegIdx) (imm7 : Imm7), ∃ t, exec (.addi rA rB imm7) s = .next t ∧
    RegistersAfter s t rB ((((s.readReg rA).toNat : Int) + imm7.toInt) % 65536).toNat ∧
    PcSequential s t ∧ MemoryUnchanged s t ∧ t.halted = s.halted

/-- R91: the words of SLTI, its result (the immediate UNSIGNED, 0..127) and its frame. -/
def Obligations.SltiWritesUnsignedLessImmediate : Prop :=
  (∀ w : Word, w &&& 0xE000#16 = 0xE000#16 →
    decode w = .slti (w.extractLsb' 10 3) (w.extractLsb' 7 3) (w.extractLsb' 0 7)) ∧
  ∀ (s : State) (rA rB : RegIdx) (imm7 : Imm7), ∃ t, exec (.slti rA rB imm7) s = .next t ∧
    RegistersAfter s t rB (if (s.readReg rA).toNat < imm7.toNat then 1 else 0) ∧
    PcSequential s t ∧ MemoryUnchanged s t ∧ t.halted = s.halted

/-- R92: the three patterns of JR, its target and its frame; it never changes the halted status, whatever its target
and whatever its ignored fields. -/
def Obligations.JrJumpsToRegister : Prop :=
  (∀ w : Word,
    w &&& 0xE00F#16 = 0x0005#16 ∨ w &&& 0xE00E#16 = 0x0006#16 ∨ w &&& 0xE008#16 = 0x0008#16 →
    decode w = .jr (w.extractLsb' 10 3) (w.extractLsb' 7 3) (w.extractLsb' 4 3) (w.extractLsb' 0 4)) ∧
  ∀ (s : State) (rA rB rC : RegIdx) (func : Func), ∃ t, exec (.jr rA rB rC func) s = .next t ∧
    t.pc.toNat = (s.readReg rA).toNat % 8192 ∧
    RegistersUnchanged s t ∧ MemoryUnchanged s t ∧ t.halted = s.halted

/-- R93: the words of J, its target, its frame, and the halt: from a running state the core is halted after it exactly
when the target is the J's own address. -/
def Obligations.JJumpsOrHalts : Prop :=
  (∀ w : Word, w &&& 0xE000#16 = 0x4000#16 → decode w = .j (w.extractLsb' 0 13)) ∧
  ∀ (s : State) (imm13 : Addr), ∃ t, exec (.j imm13) s = .next t ∧
    t.pc = imm13 ∧ (t.halted = true ↔ imm13.toNat = s.pc.toNat ∨ s.halted = true) ∧
    RegistersUnchanged s t ∧ MemoryUnchanged s t

/-- R94: the words of JAL, its link value in R7, its target and its frame; it never halts. -/
def Obligations.JalLinksAndJumps : Prop :=
  (∀ w : Word, w &&& 0xE000#16 = 0x6000#16 → decode w = .jal (w.extractLsb' 0 13)) ∧
  ∀ (s : State) (imm13 : Addr), ∃ t, exec (.jal imm13) s = .next t ∧
    RegistersAfter s t 7#3 ((s.pc.toNat + 1) % 8192) ∧
    t.pc = imm13 ∧ MemoryUnchanged s t ∧ t.halted = s.halted

/-- R95: the words of JEQ, its next PC taken and not taken, and its frame; it never halts. -/
def Obligations.JeqBranchesWhenEqual : Prop :=
  (∀ w : Word, w &&& 0xE000#16 = 0xC000#16 →
    decode w = .jeq (w.extractLsb' 10 3) (w.extractLsb' 7 3) (w.extractLsb' 0 7)) ∧
  ∀ (s : State) (rA rB : RegIdx) (imm7 : Imm7), ∃ t, exec (.jeq rA rB imm7) s = .next t ∧
    t.pc.toNat = (if s.readReg rA = s.readReg rB then (((s.pc.toNat : Int) + 1 + imm7.toInt) % 8192).toNat
      else (s.pc.toNat + 1) % 8192) ∧
    RegistersUnchanged s t ∧ MemoryUnchanged s t ∧ t.halted = s.halted

/-- R96: the words of LW, its effective address, its result and its frame. -/
def Obligations.LwLoadsWord : Prop :=
  (∀ w : Word, w &&& 0xE000#16 = 0x8000#16 →
    decode w = .lw (w.extractLsb' 10 3) (w.extractLsb' 7 3) (w.extractLsb' 0 7)) ∧
  ∀ (s : State) (rA rB : RegIdx) (imm7 : Imm7), ∃ t, exec (.lw rA rB imm7) s = .next t ∧
    (effectiveAddress s rA imm7).toNat = ((((s.readReg rA).toNat : Int) + imm7.toInt) % 8192).toNat ∧
    RegistersAfter s t rB (s.memRead (effectiveAddress s rA imm7)).toNat ∧
    PcSequential s t ∧ MemoryUnchanged s t ∧ t.halted = s.halted

/-- R97: the words of SW, its effective address, the one word it stores and its frame. -/
def Obligations.SwStoresWord : Prop :=
  (∀ w : Word, w &&& 0xE000#16 = 0xA000#16 →
    decode w = .sw (w.extractLsb' 10 3) (w.extractLsb' 7 3) (w.extractLsb' 0 7)) ∧
  ∀ (s : State) (rA rB : RegIdx) (imm7 : Imm7), ∃ t, exec (.sw rA rB imm7) s = .next t ∧
    (effectiveAddress s rA imm7).toNat = ((((s.readReg rA).toNat : Int) + imm7.toInt) % 8192).toNat ∧
    MemoryAfter s t (effectiveAddress s rA imm7) (s.readReg rB) ∧
    PcSequential s t ∧ RegistersUnchanged s t ∧ t.halted = s.halted

/-! ## Encoding -/

/-- Decoding the word of a well-formed instruction gives the instruction back, for every instruction and every operand
value (R52 to R63). That a `jr` keeps its ignored fields is the model's choice (assumption log 6). -/
def Obligations.DecodeOfEncodeIsInstruction : Prop :=
  ∀ i : Instr, i.wellFormed = true → decode (encode i) = i

/-- Every one of the 65536 words decodes to a well-formed instruction, and that instruction's word is the word itself:
no bit is dropped and nothing is rejected (R64, R65). That a `jr` keeps its ignored fields is the model's choice
(assumption log 6). -/
def Obligations.EncodeOfDecodeIsWord : Prop :=
  ∀ w : Word, (decode w).wellFormed = true ∧ encode (decode w) = w

/-- The spec's inference behind R63 ("Every one of the 65536 words matches exactly one pattern", marked derived): every
word matches exactly one row of the opcode map, and decodes to that row's operation. -/
def Obligations.EveryWordMatchesExactlyOneRow : Prop :=
  ∀ w : Word, (opcodeRows.filter (fun row => row.matchesWord w)).length = 1 ∧
    ∀ row ∈ opcodeRows, row.matchesWord w = true → (decode w).kind = row.kind

/-- Words of 95_test_vectors.md section 2.1, one of each operation, decode to the instructions they stand for. -/
def Obligations.ListedWordsDecode : Prop :=
  decode 0x0530#16 = .add 1#3 2#3 3#3 ∧ decode 0x0531#16 = .sub 1#3 2#3 3#3 ∧
  decode 0x0532#16 = .or 1#3 2#3 3#3 ∧ decode 0x0533#16 = .and 1#3 2#3 3#3 ∧
  decode 0x0534#16 = .slt 1#3 2#3 3#3 ∧ decode 0x1408#16 = .jr 5#3 0#3 0#3 8#4 ∧
  decode 0x2085#16 = .addi 0#3 1#3 5#7 ∧ decode 0x5FFF#16 = .j 8191#13 ∧ decode 0x600A#16 = .jal 10#13 ∧
  decode 0x857F#16 = .lw 1#3 2#3 127#7 ∧ decode 0xA503#16 = .sw 1#3 2#3 3#7 ∧
  decode 0xC57D#16 = .jeq 1#3 2#3 125#7 ∧ decode 0xE57F#16 = .slti 1#3 2#3 127#7

/-- The spec's inference R65 ("Bits an operation does not use are ignored and have no effect", marked derived): two JR
words that agree on bits 12..10 do the same in every state, whatever their ignored bits and func value;
of every other operation each bit counts: two different words are different instructions. -/
def Obligations.OnlyJrIgnoresBits : Prop :=
  (∀ (w w' : Word) (s : State),
    w.extractLsb' 13 3 = 0#3 → 5 ≤ (w.extractLsb' 0 4).toNat →
    w'.extractLsb' 13 3 = 0#3 → 5 ≤ (w'.extractLsb' 0 4).toNat →
    w'.extractLsb' 10 3 = w.extractLsb' 10 3 → exec (decode w') s = exec (decode w) s) ∧
  (∀ w w' : Word, (decode w).kind ≠ .jr → w' ≠ w → decode w' ≠ decode w)

/-! ## The step, halting and runs -/

/-- R70, R71: a step of a running core executes the instruction that the word at pc decodes to; exec's own effect moves
pc, nothing is added around it. -/
def Obligations.StepRunsDecodedInstruction : Prop :=
  ∀ (s : State) (i : Instr), s.halted = false → i.wellFormed = true → decode (s.memRead s.pc) = i →
    step s = exec i s

/-- The model's own move, not the spec's: `State.withFetchWord` stores a word at pc and clears the halted status, standing
for the host's load before a run (assumption logs 4 and 12); no rule of the spec has such a move, and R136 gives the
host none while the core runs. The very next step runs the placed word; no register, no other memory word and not pc
changes. -/
def Obligations.PlacedWordRunsNext : Prop :=
  ∀ (s : State) (w : Word),
    step (s.withFetchWord 16 w.toNat) = exec (decode w) (s.withFetchWord 16 w.toNat) ∧
    MemoryAfter s (s.withFetchWord 16 w.toNat) s.pc w ∧ RegistersUnchanged s (s.withFetchWord 16 w.toNat) ∧
    (s.withFetchWord 16 w.toNat).pc = s.pc

/-- R110: the step has no fault outcome and no instruction is refused: every step of a running core and every
instruction in every state answers a next state. -/
def Obligations.EveryStepAnswersNext : Prop :=
  (∀ s : State, s.halted = false → ∃ t, step s = .next t) ∧ ∀ (i : Instr) (s : State), ∃ t, exec i s = .next t

/-- R79: a step of a running core leaves it halted exactly when the fetched instruction is a J to its own address; the
halting step keeps pc, every register and every memory word. -/
def Obligations.OnlySelfJumpHalts : Prop :=
  ∀ s : State, s.halted = false → ∃ t, step s = .next t ∧
    (t.halted = true ↔ decode (s.memRead s.pc) = .j s.pc) ∧
    (t.halted = true → t.pc = s.pc ∧ RegistersUnchanged s t ∧ MemoryUnchanged s t)

/-- The model's choice (assumption log 2, for R80's "has no step" and "changes nothing"): any number of steps from a
halted state answers that state. -/
def Obligations.HaltedStateStaysAsItIs : Prop :=
  ∀ (s : State) (n : Nat), s.halted = true → Sys2Proof.core.run n s = .next s

/-- R138: the result of a run does not depend on how many steps the executor allows: two runs from one state that have
ended have ended in the same state. That steps after the end answer the same state is the model's choice (assumption
log 2). -/
def Obligations.RunResultIsUnique : Prop :=
  ∀ (s t u : State) (m n : Nat), FinishesIn m s t → FinishesIn n s u → t = u

/-- R78: a run that never reaches a J to its own address goes on for ever: after any number of steps the core is in a
running state. -/
def Obligations.RunWithoutSelfJumpNeverEnds : Prop :=
  ∀ s : State, s.halted = false →
    (∀ (n : Nat) (t : State), Sys2Proof.core.run n s = .next t → decode (t.memRead t.pc) ≠ .j t.pc) →
    ∀ n : Nat, ∃ t, Sys2Proof.core.run n s = .next t ∧ t.halted = false

/-! ## Invariants -/

/-- Every step, from every state that meets it, keeps the invariant: R0's stored value 0 (R34), and the memory in the
model's canonical form (assumption log 1). -/
def Obligations.StepKeepsInvariant : Prop :=
  ∀ s t : State, s.inv = true → step s = .next t → t.inv = true

/-- The invariant holds at reset (whose empty image is the model's choice, assumption log 4). -/
def Obligations.InvariantHoldsAtReset : Prop := State.reset.inv = true

/-- R34: in every state that a run from a loaded image of at most 8192 words reaches, register 0 stores and reads 0; every register and memory cell lies below 65536 and pc below 8192. -/
def Obligations.InvariantHoldsInReachableStates : Prop :=
  ∀ (image : List Word) (n : Nat) (t : State), image.length ≤ 8192 →
    Sys2Proof.core.run n (State.boot image) = .next t →
    t.x[0] = 0#16 ∧ t.readReg 0#3 = 0#16 ∧ (∀ r : RegIdx, (t.readReg r).toNat < 65536) ∧
    (∀ a : Addr, (t.memRead a).toNat < 65536) ∧ t.pc.toNat < 8192

/-- Two canonical memories that read alike at all 8192 addresses are the same data (the representation is the model's
choice, assumption log 1). -/
def Obligations.CanonicalMemoriesReadingAlikeAreEqual : Prop :=
  ∀ m n : Memory, m.wf = true → n.wf = true → (∀ a : Addr, m.read a = n.read a) → m = n

/-! ## Rules over all instructions -/

/-- R75: the next-PC table. -/
def Obligations.NextPcTable : Prop :=
  ∀ (i : Instr) (s : State), ∃ t, exec i s = .next t ∧
    t.pc.toNat =
      (match i with
       | .jr rA _ _ _ => (s.readReg rA).toNat % 8192
       | .j imm13 => imm13.toNat
       | .jal imm13 => imm13.toNat
       | .jeq rA rB imm7 =>
         if s.readReg rA = s.readReg rB then (((s.pc.toNat : Int) + 1 + imm7.toInt) % 8192).toNat
         else (s.pc.toNat + 1) % 8192
       | _ => (s.pc.toNat + 1) % 8192)

/-- R74: only the write destination of an instruction changes (rC, rB, R7 of a JAL, or none), and R0 never does. -/
def Obligations.OnlyWriteDestinationChanges : Prop :=
  ∀ (i : Instr) (s : State), ∃ t, exec i s = .next t ∧
    ∀ r : RegIdx, writtenRegister i ≠ some r ∨ r = 0#3 → t.readReg r = s.readReg r

/-- R21: R0 reads as 0 in every state; an instruction whose destination is R0 leaves every register as it was and
otherwise proceeds as with any destination (it advances pc and touches no memory); no instruction changes R0's stored
value. -/
def Obligations.RegisterZeroIsHardwired : Prop :=
  (∀ s : State, s.readReg 0#3 = 0#16) ∧
  (∀ (i : Instr) (s : State), writtenRegister i = some 0#3 → ∃ t, exec i s = .next t ∧
    t.x = s.x ∧ PcSequential s t ∧ MemoryUnchanged s t ∧ t.halted = s.halted) ∧
  (∀ (i : Instr) (s : State), ∃ t, exec i s = .next t ∧ t.x[0] = s.x[0])

/-- R70: a step of a running core writes at most one register and at most one memory word, never both: a store writes
the word at its effective address and no register, every other instruction writes no memory and at most its
destination. -/
def Obligations.StepWritesOneRegisterOrOneWord : Prop :=
  ∀ s : State, s.halted = false → ∃ t, step s = .next t ∧
    (match decode (s.memRead s.pc) with
     | .sw rA rB imm7 => RegistersUnchanged s t ∧ MemoryAfter s t (effectiveAddress s rA imm7) (s.readReg rB)
     | i => MemoryUnchanged s t ∧ ∀ r : RegIdx, writtenRegister i ≠ some r → t.readReg r = s.readReg r)

/-- R23: an instruction reads no register it does not name in a field: two states that agree on pc, status, memory and
the registers the instruction names as sources go to next states that agree on pc, status, memory and the register
written, every other register staying each state's own. -/
def Obligations.OnlyNamedRegistersAreRead : Prop :=
  ∀ (i : Instr) (s s' : State), s'.pc = s.pc → s'.halted = s.halted → MemoryUnchanged s s' →
    (∀ r ∈ readRegisters i, s'.readReg r = s.readReg r) →
    ∃ t t', exec i s = .next t ∧ exec i s' = .next t' ∧
      t'.pc = t.pc ∧ t'.halted = t.halted ∧ MemoryUnchanged t t' ∧
      (∀ r : RegIdx, writtenRegister i = some r → t'.readReg r = t.readReg r) ∧
      (∀ r : RegIdx, writtenRegister i ≠ some r → t.readReg r = s.readReg r ∧ t'.readReg r = s'.readReg r)

/-! ## Memory order, call and return -/

/-- The spec's inference R48 ("A load therefore returns the value of the most recent store to its address", marked
derived): a load right after a store returns the stored value at the store's address and the old value elsewhere. -/
def Obligations.LoadReturnsMostRecentStore : Prop :=
  ∀ (s : State) (rA rB rD rC : RegIdx) (imm7 imm7' : Imm7), rC ≠ 0#3 →
    ∃ t u, exec (.sw rA rB imm7) s = .next t ∧ exec (.lw rD rC imm7') t = .next u ∧
      u.readReg rC =
        if effectiveAddress s rD imm7' = effectiveAddress s rA imm7 then s.readReg rB
        else s.memRead (effectiveAddress s rD imm7')

/-- The spec's inference R50 ("Instruction fetch is coherent with stores", marked derived) with R73: a store is seen by the very next fetch; a store to the word being executed still completes as the store it
was, and the new word runs when control reaches that address again. -/
def Obligations.StoreIsSeenByNextFetch : Prop :=
  ∀ (s : State) (rA rB : RegIdx) (imm7 : Imm7), s.halted = false →
    decode (s.memRead s.pc) = .sw rA rB imm7 →
    ∃ t, step s = .next t ∧ MemoryAfter s t (effectiveAddress s rA imm7) (s.readReg rB) ∧ PcSequential s t ∧
      (t.pc = effectiveAddress s rA imm7 → step t = exec (decode (s.readReg rB)) t) ∧
      (effectiveAddress s rA imm7 = s.pc →
        step (t.setPc s.pc) = exec (decode (s.readReg rB)) (t.setPc s.pc))

/-- R92, R94: `jr` through R7 after a `jal` goes to the instruction after the `jal`, whatever the `jr`'s ignored
fields, and leaves R7 and the memory as the `jal` left them. -/
def Obligations.ReturnGoesBehindCall : Prop :=
  ∀ (s : State) (imm13 : Addr) (rB rC : RegIdx) (func : Func),
    ∃ t u, exec (.jal imm13) s = .next t ∧ exec (.jr 7#3 rB rC func) t = .next u ∧
      t.pc = imm13 ∧ u.pc.toNat = (s.pc.toNat + 1) % 8192 ∧ RegistersUnchanged t u ∧ MemoryUnchanged s u

/-! ## Numeric rules -/

/-- The spec's inference in R39 ("The two forms are equal because 8192 divides 65536", marked derived) and its decision
D3: the two forms of the effective address agree, and are the unsigned base plus the signed displacement modulo
8192. -/
def Obligations.EffectiveAddressForms : Prop :=
  ∀ (s : State) (rA : RegIdx) (imm7 : Imm7),
    effectiveAddress s rA imm7 = (s.readReg rA + imm7.signExtend 16).extractLsb' 0 13 ∧
    (effectiveAddress s rA imm7).toNat = ((((s.readReg rA).toNat : Int) + imm7.toInt) % 8192).toNat

/-- The spec's inference in R12 and R82 ("where one fold equals `wrap16`", marked derived): every sum or difference that a register result folds lies in [-65535, 131070], and there one fold of 65536
is the modulus. -/
def Obligations.RegisterFoldOnceIsModulus : Prop :=
  ∀ (p q : Word) (imm7 : Imm7), ∀ n ∈ [int p + int q, int p - int q, int p + sext imm7],
    -65535 ≤ n ∧ n ≤ 131070 ∧ ((wrap16 n).toNat : Int) = foldOnce 65536 n

/-- The spec's inference in R83 ("where one fold of 8192 equals `wrap13`", marked derived): PC arithmetic lies in [-63, 8255] before reduction, and there one fold of 8192 is the modulus. -/
def Obligations.PcFoldOnceIsModulus : Prop :=
  ∀ (pc : Addr) (imm7 : Imm7),
    (-63 ≤ int pc + 1 + sext imm7 ∧ int pc + 1 + sext imm7 ≤ 8255) ∧
    ((branchTarget pc imm7).toNat : Int) = foldOnce 8192 (int pc + 1 + sext imm7) ∧
    ((seqPc pc).toNat : Int) = foldOnce 8192 (int pc + 1)

/-- 90_conflicts.md C1: for load and store sums up to 16383 one fold of 8192 is the modulus the model uses; from 16384
on one fold leaves the address out of range, so the two readings differ exactly there. -/
def Obligations.AddressFoldOnceDiffersOnlyAbove16383 : Prop :=
  ∀ (base : Word) (imm7 : Imm7),
    (int base + sext imm7 ≤ 16383 →
      ((wrap13 (int base + sext imm7)).toNat : Int) = foldOnce 8192 (int base + sext imm7)) ∧
    (16384 ≤ int base + sext imm7 → 8192 ≤ foldOnce 8192 (int base + sext imm7))

/-- R57: the signed immediate lies in -64..63 and is the two's complement reading of the 7 bits; encoding an integer of
that range and reading it back gives it again. -/
def Obligations.SignedImmediateRoundTrip : Prop :=
  (∀ v : Imm7, -64 ≤ sext v ∧ sext v ≤ 63 ∧ sext v = v.toInt ∧ signed16 (sext16 v) = sext v) ∧
  ∀ n : Int, -64 ≤ n → n ≤ 63 → sext (BitVec.ofInt 7 n) = n

/-! ## The hardware blocks -/

/-- The spec's own decision on ports (92_eei_decisions.md D2, in R24, R47, R60, R76, R81) against R70: the datapath of the six blocks takes the same step as the instruction rules, from
every running state. -/
def Obligations.DatapathTakesTheSameStep : Prop :=
  ∀ s : State, s.halted = false → step s = .next (datapath s)

/-- The ALU block of the spec's own decision (92_eei_decisions.md D2, in R81): the ALU's results and its equality output, and that adding the sign-extended pattern as an unsigned number
gives the signed sum. -/
def Obligations.AluResultTable : Prop :=
  ∀ p q : Word,
    (alu .add p q).result.toNat = (p.toNat + q.toNat) % 65536 ∧
    (alu .sub p q).result.toNat = (((p.toNat : Int) - (q.toNat : Int)) % 65536).toNat ∧
    (∀ k, k < 16 → (alu .or p q).result.getLsbD k = (p.getLsbD k || q.getLsbD k)) ∧
    (∀ k, k < 16 → (alu .and p q).result.getLsbD k = (p.getLsbD k && q.getLsbD k)) ∧
    (alu .sltu p q).result.toNat = (if p.toNat < q.toNat then 1 else 0) ∧
    (∀ aop : AluOp, (alu aop p q).eq = true ↔ p = q) ∧
    (∀ imm7 : Imm7, (alu .add p (sext16 imm7)).result.toNat = (((p.toNat : Int) + imm7.toInt) % 65536).toNat)

/-! ## The host's boundary -/

/-- R134, R135: the Loader accepts a file of at least one line exactly when it has at most 8192 lines and line `k` gives
address `k`; the image is then the lines' words in order. -/
def Obligations.LoaderAcceptsExactlySequentialFiles : Prop :=
  ∀ (lines : List (List Char)) (words : List Word), lines ≠ [] →
    (Loader.load lines = .ok words ↔
      words.length = lines.length ∧ lines.length ≤ 8192 ∧
      ∀ (k : Nat) (text : List Char), lines[k]? = some text →
        Loader.parseLine text = (words[k]?).map (fun v => (k, v)))

/-- R135: the Loader aborts at the first offending line, with the error of that line. The order of the checks on
one line is the model's choice (assumption log 8): after 8192 lines, where the next line is also one more than the
memory holds, a malformed line and then a wrong address are reported before the overflow. -/
def Obligations.LoaderAbortsAtFirstOffendingLine : Prop :=
  ∀ (before rest : List (List Char)) (bad : List Char), before.length ≤ 8192 →
    (∀ (k : Nat) (text : List Char), before[k]? = some text → ∃ v, Loader.parseLine text = some (k, v)) →
    (Loader.parseLine bad = none → Loader.load (before ++ bad :: rest) = .error .malformedLine) ∧
    (∀ a v, Loader.parseLine bad = some (a, v) → a ≠ before.length →
      Loader.load (before ++ bad :: rest) = .error .outOfSequenceAddress) ∧
    (∀ v, Loader.parseLine bad = some (before.length, v) → before.length = 8192 →
      Loader.load (before ++ bad :: rest) = .error .programOverflow)

/-- A line of R135's form, `ram[<address>] = 16'b<16 binary digits>;` with any trailing text, gives an address and a
word, under the model's choices of assumption log 8: the address is a decimal numeral that may have leading zeros
(DESIGN CHOICE), and the first binary digit is bit 15 (DEDUCED from 92_eei_decisions.md D6; the source does not say).
For digits `digits` the address is the sum of each digit times its power of ten. -/
def Obligations.LoaderReadsFirstDigitAsBit15 : Prop :=
  ∀ (digits : List Nat) (bits trailing : List Char), digits ≠ [] → (∀ d ∈ digits, d < 10) →
    bits.length = 16 → (∀ c ∈ bits, c = '0' ∨ c = '1') →
    ∃ v : Word,
      Loader.parseLine (['r', 'a', 'm', '['] ++ digits.map (fun d => decimalCharacters.getD d '0') ++
        [']', ' ', '=', ' ', '1', '6', '\'', 'b'] ++ bits ++ [';'] ++ trailing) = some (decimalValue digits, v) ∧
      ∀ k, k < 16 → (v.getLsbD (15 - k) = true ↔ bits[k]? = some '1')

/-- What the Loader's free values leave open, and what not (assumption log 8; 91_not_in_source.md says that the source
is silent on both cases): white space before a line either makes it malformed or changes nothing, and a line of R135's
form whose 16-character field holds any characters is malformed or gives its own address. -/
def Obligations.LoaderOpenLinesKeepPatternAndAddress : Prop :=
  (∀ white rest : List Char, (∀ c ∈ white, c ∈ [' ', '\t', '\n', '\x0b', '\x0c', '\r']) →
    (∀ c, rest.head? = some c → c ∉ [' ', '\t', '\n', '\x0b', '\x0c', '\r']) →
    Loader.parseLine (white ++ rest) = Loader.parseLine rest ∨
      (white ≠ [] ∧ Loader.parseLine (white ++ rest) = none)) ∧
  (∀ (digits : List Nat) (field trailing : List Char), digits ≠ [] → (∀ d ∈ digits, d < 10) → field.length = 16 →
    ∀ a v, Loader.parseLine (['r', 'a', 'm', '['] ++ digits.map (fun d => decimalCharacters.getD d '0') ++
        [']', ' ', '=', ' ', '1', '6', '\'', 'b'] ++ field ++ [';'] ++ trailing) = some (a, v) →
      a = decimalValue digits)

/-- R136, R137, R138: the host reads nothing of a running core; of a halted one it reads pc, the eight registers in
order and the memory. -/
def Obligations.HostReadsOnlyHaltedCore : Prop :=
  ∀ s : State,
    (s.halted = false → hostRead s = none) ∧
    (s.halted = true → ∃ f, hostRead s = some f ∧ f.pc = s.pc ∧ f.registers.length = 8 ∧
      (∀ r : RegIdx, f.registers[r.toNat]? = some (s.readReg r)) ∧ ∀ a : Addr, f.mem.read a = s.memRead a)

/-- R137: the Reporter prints one line per register, its index and its decimal value right-justified to 5 characters,
and the first 128 memory cells as 16 lines of 8: characters `5k..5k+3` of line `i` are the 4 lowercase hexadecimal
digits of cell `8i + k`, with one space between two cells. That the padding is spaces and the value has no leading zero
is DEDUCED, the header line is a free value, and a register line is kept as its index and its text (assumption log
7). -/
def Obligations.ReportFieldsHaveFixedWidth : Prop :=
  ∀ f : FinalState,
    (report f).registers.length = f.registers.length ∧
    (∀ (k : Nat) (v : Word), f.registers[k]? = some v →
      ∃ text digits : List Char, (report f).registers[k]? = some (k, text) ∧ text.length = 5 ∧
        text = List.replicate (5 - digits.length) ' ' ++ digits ∧ IsNumeral decimalCharacters v.toNat digits ∧
        (digits.length = 1 ∨ 10 ^ (digits.length - 1) ≤ v.toNat)) ∧
    (report f).memoryLines.length = 16 ∧
    ∀ i, i < 16 → ∃ row : List Char, (report f).memoryLines[i]? = some row ∧ row.length = 39 ∧
      ∀ k, k < 8 →
        IsNumeral hexCharacters (f.mem.read (BitVec.ofNat 13 (8 * i + k))).toNat ((row.drop (5 * k)).take 4) ∧
        (k < 7 → row[5 * k + 4]? = some ' ')
end

