-- ==== Sys2Proof/Laws/State.lean ====
section
/-! SUPPORT. What each operation over the state leaves in each field, so that no later proof unfolds a record update. -/

namespace Sys2Proof.Machine

@[simp] theorem State.setPc_pc (s : State) (t : Addr) : (s.setPc t).pc = t := rfl
@[simp] theorem State.setPc_x (s : State) (t : Addr) : (s.setPc t).x = s.x := rfl
@[simp] theorem State.setPc_mem (s : State) (t : Addr) : (s.setPc t).mem = s.mem := rfl
@[simp] theorem State.setPc_halted (s : State) (t : Addr) : (s.setPc t).halted = s.halted := rfl

@[simp] theorem State.halt_pc (s : State) : s.halt.pc = s.pc := rfl
@[simp] theorem State.halt_x (s : State) : s.halt.x = s.x := rfl
@[simp] theorem State.halt_mem (s : State) : s.halt.mem = s.mem := rfl
@[simp] theorem State.halt_halted (s : State) : s.halt.halted = true := rfl

@[simp] theorem State.advance_pc (s : State) : s.advance.pc = seqPc s.pc := rfl
@[simp] theorem State.advance_x (s : State) : s.advance.x = s.x := rfl
@[simp] theorem State.advance_mem (s : State) : s.advance.mem = s.mem := rfl
@[simp] theorem State.advance_halted (s : State) : s.advance.halted = s.halted := rfl

@[simp] theorem State.memWrite_pc (s : State) (a : Addr) (v : Word) : (s.memWrite a v).pc = s.pc := rfl
@[simp] theorem State.memWrite_x (s : State) (a : Addr) (v : Word) : (s.memWrite a v).x = s.x := rfl
@[simp] theorem State.memWrite_mem (s : State) (a : Addr) (v : Word) :
    (s.memWrite a v).mem = s.mem.write a v := rfl
@[simp] theorem State.memWrite_halted (s : State) (a : Addr) (v : Word) :
    (s.memWrite a v).halted = s.halted := rfl

@[simp] theorem State.writeReg_pc (s : State) (i : RegIdx) (v : Word) : (s.writeReg i v).pc = s.pc := by
  unfold State.writeReg; split <;> rfl
@[simp] theorem State.writeReg_mem (s : State) (i : RegIdx) (v : Word) : (s.writeReg i v).mem = s.mem := by
  unfold State.writeReg; split <;> rfl
@[simp] theorem State.writeReg_halted (s : State) (i : RegIdx) (v : Word) :
    (s.writeReg i v).halted = s.halted := by
  unfold State.writeReg; split <;> rfl

@[simp] theorem State.writeBack_pc (s : State) (i : RegIdx) (v : Word) : (s.writeBack i v).pc = seqPc s.pc := by
  simp [State.writeBack]
@[simp] theorem State.writeBack_mem (s : State) (i : RegIdx) (v : Word) : (s.writeBack i v).mem = s.mem := by
  simp [State.writeBack]
@[simp] theorem State.writeBack_halted (s : State) (i : RegIdx) (v : Word) :
    (s.writeBack i v).halted = s.halted := by
  simp [State.writeBack]

/-- Reading a register looks at the register file alone. -/
theorem State.readReg_congr {s t : State} (h : t.x = s.x) (r : RegIdx) : t.readReg r = s.readReg r := by
  simp [State.readReg, h]

@[simp] theorem State.readReg_zero (s : State) : s.readReg 0#3 = 0#16 := rfl
@[simp] theorem State.readReg_setPc (s : State) (t : Addr) (r : RegIdx) :
    (s.setPc t).readReg r = s.readReg r := rfl
@[simp] theorem State.readReg_halt (s : State) (r : RegIdx) : s.halt.readReg r = s.readReg r := rfl
@[simp] theorem State.readReg_advance (s : State) (r : RegIdx) : s.advance.readReg r = s.readReg r := rfl
@[simp] theorem State.readReg_memWrite (s : State) (a : Addr) (v : Word) (r : RegIdx) :
    (s.memWrite a v).readReg r = s.readReg r := rfl

/-- All that a register write does to what registers read as: the destination reads the value unless it is R0. -/
@[simp] theorem State.readReg_writeReg (s : State) (i : RegIdx) (v : Word) (r : RegIdx) :
    (s.writeReg i v).readReg r = if r = i ∧ r ≠ 0#3 then v else s.readReg r := by
  unfold State.writeReg State.readReg
  by_cases hi : i = 0#3
  · subst hi
    by_cases hr : r = 0#3 <;> simp [hr]
  · by_cases hr : r = 0#3
    · simp [hr]
    · simp only [hi, hr, if_false, Vector.getElem_set, BitVec.toNat_inj]
      by_cases h : i = r
      · simp [h, hr]
      · simp [h, Ne.symm h, hr]

/-- A register write with destination R0 changes nothing. -/
@[simp] theorem State.writeReg_zero (s : State) (v : Word) : s.writeReg 0#3 v = s := rfl

/-- All that a write-back does to what registers read as. -/
@[simp] theorem State.readReg_writeBack (s : State) (i : RegIdx) (v : Word) (r : RegIdx) :
    (s.writeBack i v).readReg r = if r = i ∧ r ≠ 0#3 then v else s.readReg r := by
  simp [State.writeBack]

/-- No register write touches the stored value of R0. -/
@[simp] theorem State.writeReg_x_zero (s : State) (i : RegIdx) (v : Word) : (s.writeReg i v).x[0] = s.x[0] := by
  unfold State.writeReg
  split
  · rfl
  · rename_i h
    have : i.toNat ≠ 0 := fun e => h (BitVec.eq_of_toNat_eq e)
    simp [this]

@[simp] theorem State.writeBack_x_zero (s : State) (i : RegIdx) (v : Word) : (s.writeBack i v).x[0] = s.x[0] := by
  simp [State.writeBack]

@[simp] theorem State.memRead_setPc (s : State) (t a : Addr) : (s.setPc t).memRead a = s.memRead a := rfl
@[simp] theorem State.memRead_halt (s : State) (a : Addr) : s.halt.memRead a = s.memRead a := rfl
@[simp] theorem State.memRead_advance (s : State) (a : Addr) : s.advance.memRead a = s.memRead a := rfl
@[simp] theorem State.memRead_writeReg (s : State) (i : RegIdx) (v : Word) (a : Addr) :
    (s.writeReg i v).memRead a = s.memRead a := by
  simp [State.memRead]
@[simp] theorem State.memRead_writeBack (s : State) (i : RegIdx) (v : Word) (a : Addr) :
    (s.writeBack i v).memRead a = s.memRead a := by
  simp [State.memRead]

end Sys2Proof.Machine
end

