-- ==== Sys2Proof/Laws/HostInterface.lean ====
section
/-! SUPPORT. The host's operations said once: the fields after a boot, a reset and a placed word, and what the Loader's
readers answer on a text whose parts are known. -/

namespace Sys2Proof.Machine

@[simp] theorem State.boot_pc (image : List Word) : (State.boot image).pc = 0#13 := rfl
@[simp] theorem State.boot_mem (image : List Word) : (State.boot image).mem = Memory.ofImage image := rfl
@[simp] theorem State.boot_halted (image : List Word) : (State.boot image).halted = false := rfl

@[simp] theorem State.resetInput_pc (s : State) : s.resetInput.pc = 0#13 := rfl
@[simp] theorem State.resetInput_mem (s : State) : s.resetInput.mem = s.mem := rfl
@[simp] theorem State.resetInput_halted (s : State) : s.resetInput.halted = false := rfl

@[simp] theorem State.withFetchWord_pc (s : State) (n w : Nat) : (s.withFetchWord n w).pc = s.pc := rfl
@[simp] theorem State.withFetchWord_x (s : State) (n w : Nat) : (s.withFetchWord n w).x = s.x := rfl
@[simp] theorem State.withFetchWord_halted (s : State) (n w : Nat) : (s.withFetchWord n w).halted = false := rfl

/-- A text that begins with `lead` leaves the rest. -/
theorem Loader.after_append (lead rest : List Char) : Loader.after lead (lead ++ rest) = some rest := by
  induction lead with
  | nil => cases rest <;> rfl
  | cons c lead ih => simp [Loader.after, ih]

/-- A line that begins with no white space is held against the pattern as it stands. -/
theorem Loader.body_of_head {text : List Char} (h : ∀ c, text.head? = some c → c ∉ Loader.whiteSpace) :
    Loader.body text = some text := by
  cases text with
  | nil => rfl
  | cons c text => simp [Loader.body, h c rfl]

/-- Behind white space stands the same body, if the Loader passes over that white space. -/
theorem Loader.body_append {white rest : List Char} (hw : ∀ c ∈ white, c ∈ Loader.whiteSpace)
    (hr : ∀ c, rest.head? = some c → c ∉ Loader.whiteSpace) :
    Loader.body (white ++ rest) =
      if white.isEmpty || Config.loaderPassesOver white then some rest else none := by
  have hw' : ∀ c ∈ white, Loader.whiteSpace.contains c = true := by simpa using hw
  have h1 : rest.takeWhile Loader.whiteSpace.contains = [] := by
    cases rest with
    | nil => rfl
    | cons c rest => simp [hr c rfl]
  have h2 : rest.dropWhile Loader.whiteSpace.contains = rest := by
    cases rest with
    | nil => rfl
    | cons c rest => simp [hr c rfl]
  unfold Loader.body
  rw [List.takeWhile_append_of_pos hw', List.dropWhile_append_of_pos hw', h1, h2, List.append_nil]

/-- A line is its body's parts, its field read as a word. -/
theorem Loader.parseLine_of_parts {text line digits : List Char} {a : Nat} (hb : Loader.body text = some line)
    (hp : Loader.lineParts line = some (a, digits)) :
    Loader.parseLine text = (Loader.fieldWord digits).map (fun v => (a, v)) := by
  unfold Loader.parseLine
  rw [hb, Option.bind_eq_bind, Option.bind_some, hp]
  cases hf : Loader.fieldWord digits <;> simp [hf]

/-- A line whose body matches no pattern is malformed. -/
theorem Loader.parseLine_of_no_parts {text line : List Char} (hb : Loader.body text = some line)
    (hp : Loader.lineParts line = none) : Loader.parseLine text = none := by
  unfold Loader.parseLine
  rw [hb, Option.bind_eq_bind, Option.bind_some, hp]
  rfl

/-- A decimal numeral ends at the first character that is no digit. -/
theorem Loader.decimal_append (digits rest : List Char) (acc : Nat) (h : ∀ c ∈ digits, c.isDigit = true)
    (hr : ∀ c, rest.head? = some c → c.isDigit = false) :
    Loader.decimal acc (digits ++ rest) = ((Loader.decimal acc digits).1, rest) := by
  induction digits generalizing acc with
  | nil =>
    cases rest with
    | nil => rfl
    | cons c rest => simp [Loader.decimal, hr c rfl]
  | cons c digits ih =>
    simp only [List.cons_append, Loader.decimal, h c (by simp), if_true]
    exact ih _ (fun c hc => h c (by simp [hc]))

end Sys2Proof.Machine
end

