-- ==== Sys2Proof/Laws/Memory.lean ====
section
/-! SUPPORT. The memory's laws: what a read gives after a write, and that every operation keeps the canonical form. -/

namespace Sys2Proof.Machine

@[simp] theorem Memory.lookup_nil (k : Nat) : Memory.lookup [] k = 0#16 := rfl

theorem Memory.lookup_erase (m : Memory) (k k' : Nat) :
    (m.erase k).lookup k' = if k' = k then 0#16 else m.lookup k' := by
  induction m with
  | nil => simp [Memory.erase]
  | cons c rest ih =>
    obtain ⟨j, v⟩ := c
    simp only [Memory.erase, List.filter_cons] at ih ⊢
    by_cases hj : j = k
    · subst hj
      by_cases hk : k' = j <;> simp_all [Memory.lookup, eq_comm]
    · by_cases hk : j = k'
      · subst hk; simp [Memory.lookup, hj]
      · simp [Memory.lookup, hj, hk, ih]

theorem Memory.lookup_insert (m : Memory) (k : Nat) (v : Word) (k' : Nat)
    (hk : ∀ c ∈ m, c.1 ≠ k) : (m.insert k v).lookup k' = if k' = k then v else m.lookup k' := by
  induction m with
  | nil =>
    by_cases e : k' = k
    · simp [Memory.insert, Memory.lookup, e]
    · simp [Memory.insert, Memory.lookup, e, Ne.symm e, unlistedWord]
  | cons c rest ih =>
    obtain ⟨j, w⟩ := c
    have hj : j ≠ k := hk (j, w) (by simp)
    have hrest := ih (fun c hc => hk c (by simp [hc]))
    simp only [Memory.insert]
    split
    · by_cases e : k' = k
      · simp [Memory.lookup, e]
      · simp [Memory.lookup, e, Ne.symm e]
    · by_cases e : k' = k
      · subst e; simp [Memory.lookup, hj, hrest]
      · simp [Memory.lookup, hrest, e]

theorem Memory.erase_key_ne (m : Memory) (k : Nat) : ∀ c ∈ m.erase k, c.1 ≠ k := by
  intro c hc; simpa [Memory.erase] using (List.mem_filter.mp hc).2

/-- All that a write does to what addresses read as: the written address reads the value, every other as before. It
holds of every memory, canonical or not. -/
@[simp] theorem Memory.read_write (m : Memory) (a : Addr) (v : Word) (b : Addr) :
    (m.write a v).read b = if b = a then v else m.read b := by
  unfold Memory.write Memory.read
  split
  · rename_i h; simp [Memory.lookup_erase, BitVec.toNat_inj, h, unlistedWord]
  · rw [Memory.lookup_insert _ _ _ _ (Memory.erase_key_ne m _), Memory.lookup_erase]
    by_cases e : b = a <;> simp [BitVec.toNat_inj, e]

/-- The canonical form of a non-empty memory, part by part. -/
theorem Memory.wf_cons (k : Nat) (v : Word) (rest : Memory) :
    Memory.wf ((k, v) :: rest) = true ↔
      k < 8192 ∧ v ≠ 0#16 ∧ (∀ c ∈ rest, k < c.1) ∧ Memory.wf rest = true := by
  simp [Memory.wf, unlistedWord, and_assoc]

theorem Memory.erase_wf (m : Memory) (k : Nat) (h : m.wf = true) : (m.erase k).wf = true := by
  induction m with
  | nil => rfl
  | cons c rest ih =>
    obtain ⟨j, v⟩ := c
    obtain ⟨hj, hv, hlt, hrest⟩ := (Memory.wf_cons j v rest).mp h
    simp only [Memory.erase, List.filter_cons] at ih ⊢
    split
    · exact (Memory.wf_cons _ _ _).mpr ⟨hj, hv, fun c hc => hlt c (List.mem_filter.mp hc).1, ih hrest⟩
    · exact ih hrest

theorem Memory.mem_insert (m : Memory) (k : Nat) (v : Word) (c : Nat × Word) (h : c ∈ m.insert k v) :
    c = (k, v) ∨ c ∈ m := by
  induction m with
  | nil => simpa [Memory.insert] using h
  | cons d rest ih =>
    obtain ⟨j, w⟩ := d
    simp only [Memory.insert] at h
    split at h
    · simpa using h
    · rcases List.mem_cons.mp h with h | h
      · simp [h]
      · rcases ih h with h | h <;> simp [h]

theorem Memory.insert_wf (m : Memory) (k : Nat) (v : Word) (h : m.wf = true) (hk : k < 8192) (hv : v ≠ 0#16)
    (hne : ∀ c ∈ m, c.1 ≠ k) : (m.insert k v).wf = true := by
  induction m with
  | nil => exact (Memory.wf_cons _ _ _).mpr ⟨hk, hv, by simp, rfl⟩
  | cons c rest ih =>
    obtain ⟨j, w⟩ := c
    obtain ⟨hj, hw, hlt, hrest⟩ := (Memory.wf_cons j w rest).mp h
    have hjk : j ≠ k := hne (j, w) (by simp)
    simp only [Memory.insert]
    split
    · rename_i hkj
      refine (Memory.wf_cons _ _ _).mpr ⟨hk, hv, fun c hc => ?_, h⟩
      rcases List.mem_cons.mp hc with hc | hc
      · simpa [hc] using hkj
      · exact Nat.lt_trans hkj (hlt c hc)
    · rename_i hkj
      refine (Memory.wf_cons _ _ _).mpr ⟨hj, hw, fun c hc => ?_, ih hrest (fun c hc => hne c (by simp [hc]))⟩
      rcases Memory.mem_insert rest k v c hc with hc | hc
      · simp only [hc]; omega
      · exact hlt c hc

/-- Every write keeps the canonical form. -/
theorem Memory.write_wf (m : Memory) (a : Addr) (v : Word) (h : m.wf = true) : (m.write a v).wf = true := by
  unfold Memory.write
  split
  · exact Memory.erase_wf m _ h
  · rename_i hv
    exact Memory.insert_wf _ _ _ (Memory.erase_wf m _ h) a.isLt hv (Memory.erase_key_ne m _)

theorem Memory.ofImageFrom_key_le (image : List Word) (base : Nat) :
    ∀ c ∈ Memory.ofImageFrom base image, base ≤ c.1 := by
  induction image generalizing base with
  | nil => simp [Memory.ofImageFrom]
  | cons v rest ih =>
    intro c hc
    simp only [Memory.ofImageFrom] at hc
    split at hc
    · exact Nat.le_of_succ_le (ih (base + 1) c hc)
    · rcases List.mem_cons.mp hc with hc | hc
      · simp [hc]
      · exact Nat.le_of_succ_le (ih (base + 1) c hc)

/-- The memory of an image that fits is in canonical form. -/
theorem Memory.ofImageFrom_wf (image : List Word) (base : Nat) (h : base + image.length ≤ 8192) :
    (Memory.ofImageFrom base image).wf = true := by
  induction image generalizing base with
  | nil => rfl
  | cons v rest ih =>
    simp only [List.length_cons] at h
    simp only [Memory.ofImageFrom]
    split
    · exact ih _ (by omega)
    · rename_i hv
      exact (Memory.wf_cons _ _ _).mpr
        ⟨by omega, hv, fun c hc => Memory.ofImageFrom_key_le rest (base + 1) c hc, ih _ (by omega)⟩

/-- What an address of an image's memory reads as: the image's word, or 0 before and beyond it. -/
theorem Memory.lookup_ofImageFrom (image : List Word) (base k : Nat) :
    (Memory.ofImageFrom base image).lookup k = if base ≤ k then image.getD (k - base) 0#16 else 0#16 := by
  induction image generalizing base with
  | nil => simp [Memory.ofImageFrom]
  | cons v rest ih =>
    simp only [Memory.ofImageFrom]
    rcases Nat.lt_trichotomy base k with hk | hk | hk
    · have e : k - base = (k - (base + 1)) + 1 := by omega
      have hle : base + 1 ≤ k := hk
      have hlt : ¬ k < base := by omega
      split <;> simp [Memory.lookup, ih, e, hle, hlt, Nat.ne_of_lt hk]
    · subst hk
      split
      · rename_i hv
        have : ¬ base + 1 ≤ base := by omega
        simp [ih, hv, unlistedWord, this]
      · simp [Memory.lookup]
    · have h1 : ¬ base ≤ k := by omega
      have h2 : ¬ base + 1 ≤ k := by omega
      split <;> simp [Memory.lookup, ih, h2, Nat.ne_of_gt hk]

/-- All that a memory write does to what addresses read as, at the level of the state. -/
@[simp] theorem State.memRead_memWrite (s : State) (a : Addr) (v : Word) (b : Addr) :
    (s.memWrite a v).memRead b = if b = a then v else s.memRead b := Memory.read_write s.mem a v b

/-- Reset leaves the memory in canonical form. -/
theorem State.reset_mem_wf : State.reset.mem.wf = true := rfl

end Sys2Proof.Machine
end

