-- ==== Sys2Proof/Laws/Numeric.lean ====
section
/-! SUPPORT. The numeric operations and operand forms said once: what each result is as a natural number, and its
plain bit-vector form. -/

namespace Sys2Proof.Machine

/-- The 16-bit fold is the mathematical modulus (00_scope.md R12). -/
theorem wrap16_toNat (n : Int) : (wrap16 n).toNat = (n % 65536).toNat := by
  simp [wrap16, BitVec.toNat_ofInt]

/-- The 13-bit fold is the mathematical modulus (00_scope.md R12). -/
theorem wrap13_toNat (n : Int) : (wrap13 n).toNat = (n % 8192).toNat := by
  simp [wrap13, BitVec.toNat_ofInt]

/-- The exact sum folded is the bit-vector sum. -/
theorem wrap16_int_add (p q : Word) : wrap16 (int p + int q) = p + q := by
  apply BitVec.eq_of_toNat_eq
  rw [wrap16_toNat, BitVec.toNat_add]
  simp only [int]
  omega

/-- The exact difference folded is the bit-vector difference. -/
theorem wrap16_int_sub (p q : Word) : wrap16 (int p - int q) = p - q := by
  apply BitVec.eq_of_toNat_eq
  rw [wrap16_toNat, BitVec.toNat_sub]
  simp only [int]
  have := p.isLt
  have := q.isLt
  omega

/-- The next address in sequence as a natural number (10_state.md R26). -/
theorem seqPc_toNat (pc : Addr) : (seqPc pc).toNat = (pc.toNat + 1) % 8192 := by
  rw [seqPc, wrap13_toNat]
  simp only [int]
  omega

/-- Bit 6 of a 7-bit field is set exactly when the field is 64 or more. -/
theorem imm7_sign (v : Imm7) : v.getLsbD 6 = decide (64 ≤ v.toNat) := by
  have h := BitVec.msb_eq_decide v
  simpa [BitVec.msb_eq_getLsbD_last] using h

/-- The signed reading by the size of the field (00_scope.md R11). -/
theorem sext_eq (v : Imm7) : sext v = if 64 ≤ v.toNat then (v.toNat : Int) - 128 else (v.toNat : Int) := by
  simp only [sext, imm7_sign, int]
  by_cases h : 64 ≤ v.toNat <;> simp [h]

/-- Zero extension keeps the value of a field of at most 16 bits (00_scope.md R11). -/
theorem zext16_toNat {n : Nat} (v : BitVec n) (h : n ≤ 16) : (zext16 v).toNat = v.toNat := by
  simp only [zext16, BitVec.toNat_setWidth]
  exact Nat.mod_eq_of_lt (Nat.lt_of_lt_of_le v.isLt (Nat.pow_le_pow_right (by decide) h))

/-- The sign-extended 16-bit pattern by the size of the field (00_scope.md R11). -/
theorem sext16_toNat (v : Imm7) : (sext16 v).toNat = if 64 ≤ v.toNat then v.toNat + 65408 else v.toNat := by
  have hz : (zext16 v).toNat = v.toNat := zext16_toNat v (by decide)
  have := v.isLt
  simp only [sext16, imm7_sign]
  by_cases h : 64 ≤ v.toNat
  · simp only [h, decide_true, if_true, BitVec.toNat_add, hz]
    simp
    omega
  · simp [h, hz]

/-- The comparison result is 1 or 0 (40_execution_cycle.md R81). -/
theorem setLessUnsigned_toNat (p q : Word) : (setLessUnsigned p q).toNat = if p.toNat < q.toNat then 1 else 0 := by
  unfold setLessUnsigned; split <;> rfl

/-- The equality output is equality of the patterns (40_execution_cycle.md R81). -/
@[simp] theorem equalPatterns_iff (p q : Word) : equalPatterns p q = true ↔ p = q := by
  simp [equalPatterns]

/-- The low 13 bits of a word are its value modulo 8192 (00_scope.md R9). -/
theorem low13_toNat (v : Word) : (low13 v).toNat = v.toNat % 8192 := by
  simp [low13]

/-- The link value of a JAL: the next address, bits 15..13 clear (43_control_transfer.md R94). -/
theorem linkValue_toNat (pc : Addr) : (linkValue pc).toNat = (pc.toNat + 1) % 8192 := by
  rw [linkValue, zext16_toNat _ (by decide), seqPc_toNat]

/-- The target of a taken JEQ (43_control_transfer.md R95). -/
theorem branchTarget_toNat (pc : Addr) (imm7 : Imm7) :
    (branchTarget pc imm7).toNat = (((pc.toNat : Int) + 1 + sext imm7) % 8192).toNat := by
  rw [branchTarget, wrap13_toNat]
  rfl

/-- The target of a JR (43_control_transfer.md R92). -/
theorem registerTarget_toNat (s : State) (rA : RegIdx) :
    (registerTarget s rA).toNat = (s.readReg rA).toNat % 8192 := low13_toNat _

/-- The effective address as a natural number (20_memory.md R39). -/
theorem effectiveAddress_toNat (s : State) (rA : RegIdx) (imm7 : Imm7) :
    (effectiveAddress s rA imm7).toNat = ((((s.readReg rA).toNat : Int) + sext imm7) % 8192).toNat := by
  rw [effectiveAddress, wrap13_toNat]
  rfl

/-- An effective address depends on the base register alone. -/
theorem effectiveAddress_congr {s t : State} {rA : RegIdx} (h : t.readReg rA = s.readReg rA) (imm7 : Imm7) :
    effectiveAddress t rA imm7 = effectiveAddress s rA imm7 := by
  simp [effectiveAddress, h]

end Sys2Proof.Machine
end

