-- ==== Sys2Proof/Laws/PerInstr.lean ====
section
/-! SUPPORT. Statements about every instruction as syntax, one lemma per constructor of Instr. -/

namespace Sys2Proof.Laws

/-- The family: the word written for a well-formed instruction is classified as that instruction's operation
(30_encoding.md R62, R63). -/
def EncodedKind.Statement (i : Instr) : Prop :=
  i.wellFormed = true → kindOf (opField (encode i)) (funcField (encode i)) = i.kind

theorem opField_encodeRRR (rA rB rC : RegIdx) (func : Func) : opField (encodeRRR rA rB rC func) = 0#3 := by
  apply BitVec.eq_of_getLsbD_eq
  intro k hk
  simp only [opField, encodeRRR, BitVec.getLsbD_extractLsb', BitVec.getLsbD_append]
  have : k = 0 ∨ k = 1 ∨ k = 2 := by omega
  rcases this with rfl | rfl | rfl <;> simp

theorem funcField_encodeRRR (rA rB rC : RegIdx) (func : Func) : funcField (encodeRRR rA rB rC func) = func := by
  apply BitVec.eq_of_getLsbD_eq
  intro k hk
  simp only [funcField, encodeRRR, BitVec.getLsbD_extractLsb', BitVec.getLsbD_append]
  simp [hk]

theorem opField_encodeRRI (op : Opcode) (rA rB : RegIdx) (imm7 : Imm7) :
    opField (encodeRRI op rA rB imm7) = op := by
  apply BitVec.eq_of_getLsbD_eq
  intro k hk
  simp only [opField, encodeRRI, BitVec.getLsbD_extractLsb', BitVec.getLsbD_append]
  have : k = 0 ∨ k = 1 ∨ k = 2 := by omega
  rcases this with rfl | rfl | rfl <;> simp

theorem opField_encodeJ (op : Opcode) (imm13 : Addr) : opField (encodeJ op imm13) = op := by
  apply BitVec.eq_of_getLsbD_eq
  intro k hk
  simp only [opField, encodeJ, BitVec.getLsbD_extractLsb', BitVec.getLsbD_append]
  have : k = 0 ∨ k = 1 ∨ k = 2 := by omega
  rcases this with rfl | rfl | rfl <;> simp

theorem EncodedKind.add (rA rB rC : RegIdx) : EncodedKind.Statement (.add rA rB rC) := by
  intro _; rw [encode, opField_encodeRRR, funcField_encodeRRR]; rfl
theorem EncodedKind.sub (rA rB rC : RegIdx) : EncodedKind.Statement (.sub rA rB rC) := by
  intro _; rw [encode, opField_encodeRRR, funcField_encodeRRR]; rfl
theorem EncodedKind.or (rA rB rC : RegIdx) : EncodedKind.Statement (.or rA rB rC) := by
  intro _; rw [encode, opField_encodeRRR, funcField_encodeRRR]; rfl
theorem EncodedKind.and (rA rB rC : RegIdx) : EncodedKind.Statement (.and rA rB rC) := by
  intro _; rw [encode, opField_encodeRRR, funcField_encodeRRR]; rfl
theorem EncodedKind.slt (rA rB rC : RegIdx) : EncodedKind.Statement (.slt rA rB rC) := by
  intro _; rw [encode, opField_encodeRRR, funcField_encodeRRR]; rfl
theorem EncodedKind.jr (rA rB rC : RegIdx) (func : Func) : EncodedKind.Statement (.jr rA rB rC func) := by
  intro h
  rw [encode, opField_encodeRRR, funcField_encodeRRR]
  have all : ∀ f : Func, 5 ≤ f.toNat → kindOf 0#3 f = .jr := by decide
  exact all func (by simpa [Instr.wellFormed] using h)
theorem EncodedKind.addi (rA rB : RegIdx) (imm7 : Imm7) : EncodedKind.Statement (.addi rA rB imm7) := by
  intro _; rw [encode, opField_encodeRRI]; rfl
theorem EncodedKind.j (imm13 : Addr) : EncodedKind.Statement (.j imm13) := by
  intro _; rw [encode, opField_encodeJ]; rfl
theorem EncodedKind.jal (imm13 : Addr) : EncodedKind.Statement (.jal imm13) := by
  intro _; rw [encode, opField_encodeJ]; rfl
theorem EncodedKind.lw (rA rB : RegIdx) (imm7 : Imm7) : EncodedKind.Statement (.lw rA rB imm7) := by
  intro _; rw [encode, opField_encodeRRI]; rfl
theorem EncodedKind.sw (rA rB : RegIdx) (imm7 : Imm7) : EncodedKind.Statement (.sw rA rB imm7) := by
  intro _; rw [encode, opField_encodeRRI]; rfl
theorem EncodedKind.jeq (rA rB : RegIdx) (imm7 : Imm7) : EncodedKind.Statement (.jeq rA rB imm7) := by
  intro _; rw [encode, opField_encodeRRI]; rfl
theorem EncodedKind.slti (rA rB : RegIdx) (imm7 : Imm7) : EncodedKind.Statement (.slti rA rB imm7) := by
  intro _; rw [encode, opField_encodeRRI]; rfl

end Sys2Proof.Laws
end

