-- ==== Sys2Proof/Tests/Slice0.lean ====
section
/-! SUPPORT. Tests. Expected values come from 95_test_vectors.md (the vector's id stands in the comment) or are worked
out by hand from the cited rule. The `witness` theorems show, for each statement with hypotheses, values that meet
them. -/

namespace Sys2Proof.Tests

open Sys2Proof.Machine

/-! ## Well-formedness -/

-- R62, R64: func 4 is SLT's, so no word is a JR with func 4; func 5 is the first of JR's.
theorem test_wellFormed_refuses_jr_func4 : (Instr.jr 1#3 0#3 0#3 4#4).wellFormed = false := by decide
theorem test_wellFormed_refuses_jr_func0 : (Instr.jr 7#3 7#3 7#3 0#4).wellFormed = false := by decide
theorem test_wellFormed_accepts_jr_func5 : (Instr.jr 1#3 0#3 0#3 5#4).wellFormed = true := by decide

/-! ## Decoding: words written bit by bit from 30_encoding.md R59, R63 (and 95_test_vectors.md section 2.1) -/

theorem test_decode_add : decode 0b000_001_010_011_0000#16 = .add 1#3 2#3 3#3 := by decide
theorem test_decode_sub : decode 0b000_001_010_011_0001#16 = .sub 1#3 2#3 3#3 := by decide
theorem test_decode_or : decode 0b000_001_010_011_0010#16 = .or 1#3 2#3 3#3 := by decide
theorem test_decode_and : decode 0b000_001_010_011_0011#16 = .and 1#3 2#3 3#3 := by decide
theorem test_decode_slt : decode 0b000_001_010_011_0100#16 = .slt 1#3 2#3 3#3 := by decide
theorem test_decode_jr_func5 : decode 0b000_101_000_000_0101#16 = .jr 5#3 0#3 0#3 5#4 := by decide
theorem test_decode_jr_func7 : decode 0b000_101_001_010_0111#16 = .jr 5#3 1#3 2#3 7#4 := by decide
theorem test_decode_jr_func15 : decode 0b000_101_111_111_1111#16 = .jr 5#3 7#3 7#3 15#4 := by decide
theorem test_decode_addi : decode 0b001_000_001_0000101#16 = .addi 0#3 1#3 5#7 := by decide
theorem test_decode_j : decode 0b010_1111111111110#16 = .j 8190#13 := by decide
theorem test_decode_jal : decode 0b011_0000000001010#16 = .jal 10#13 := by decide
theorem test_decode_lw : decode 0b100_001_010_1111111#16 = .lw 1#3 2#3 127#7 := by decide
theorem test_decode_sw : decode 0b101_001_010_0000011#16 = .sw 1#3 2#3 3#7 := by decide
theorem test_decode_jeq : decode 0b110_001_010_1111101#16 = .jeq 1#3 2#3 125#7 := by decide
theorem test_decode_slti : decode 0b111_000_000_1000000#16 = .slti 0#3 0#3 64#7 := by decide
theorem test_decode_zero : decode 0x0000#16 = .add 0#3 0#3 0#3 := by decide
theorem test_decode_ones : decode 0xFFFF#16 = .slti 7#3 7#3 127#7 := by decide
theorem test_decodeTableWord : decodeTableWord 16 0xC57D = some (.jeq 1#3 2#3 125#7) := by decide
theorem test_encode_sw : encode (.sw 1#3 2#3 3#7) = 0xA503#16 := by decide
theorem test_encode_jr : encode (.jr 5#3 0#3 0#3 8#4) = 0x1408#16 := by decide

/-! ## Numeric rules -/

-- 20_memory.md R40.
theorem test_address_below_zero : wrap13 (int 0#16 + sext 0x7F#7) = 8191#13 := by decide
theorem test_address_above_top : wrap13 (int 0xFFFF#16 + sext 0x3F#7) = 62#13 := by decide
theorem test_address_two_wraps : wrap13 (int 10000#16 + sext 0#7) = 1808#13 := by decide
-- 95_test_vectors.md S4.
theorem test_sext_minimum : sext 0x40#7 = -64 := by decide
theorem test_sext16_minus_one : sext16 0x7F#7 = 0xFFFF#16 := by decide

/-! ## One step of each instruction -/

/-- A running machine at `pc` with registers R1 and R2 set, one memory cell, and the word `w` placed at `pc`. -/
def before (pc : Addr) (x1 x2 : Word) (mem : Memory) (w : Nat) : State :=
  ((({ State.reset with pc := pc, mem := mem }.writeReg 1#3 x1).writeReg 2#3 x2)).withFetchWord 16 w

/-- What one step leaves, read by `f`. -/
def afterStep {α : Type} (s : State) (f : State → α) : Option α :=
  match step s with
  | .next t => some (f t)
  | .fault _ => none
  | .refused _ => none

-- V-ADD-1 and V-RR-2.
theorem test_add_wraps :
    afterStep (before 0#13 0xFFFF#16 1#16 [] 0x0530) (fun t => (t.readReg 3#3, t.pc)) = some (0#16, 1#13) := by decide
theorem test_add_doubles : afterStep (before 0#13 0x8001#16 0#16 [] 0x0490) (fun t => t.readReg 1#3) = some 2#16 := by
  decide
-- V-SUB-1 and V-SUB-2.
theorem test_sub_wraps :
    afterStep (before 0#13 0#16 1#16 [] 0x0531) (fun t => t.readReg 3#3) = some 0xFFFF#16 := by decide
theorem test_sub_order :
    afterStep (before 0#13 0x8000#16 1#16 [] 0x0531) (fun t => t.readReg 3#3) = some 0x7FFF#16 := by decide
-- V-OR-1, V-AND-1, V-AND-2.
theorem test_or : afterStep (before 0#13 0x00F0#16 0x0F0F#16 [] 0x0532) (fun t => t.readReg 3#3) = some 0x0FFF#16 := by
  decide
theorem test_and : afterStep (before 0#13 0x00F0#16 0x0F0F#16 [] 0x0533) (fun t => t.readReg 3#3) = some 0#16 := by
  decide
theorem test_and_mask :
    afterStep (before 0#13 0xFFFF#16 0xAAAA#16 [] 0x0533) (fun t => t.readReg 3#3) = some 0xAAAA#16 := by decide
-- V-SLT-1 and V-SLT-5.
theorem test_slt_is_unsigned :
    afterStep (before 0#13 0xFFFF#16 1#16 [] 0x0534) (fun t => t.readReg 3#3) = some 0#16 := by decide
theorem test_slt_less :
    afterStep (before 0#13 0x7FFF#16 0x8000#16 [] 0x0534) (fun t => t.readReg 3#3) = some 1#16 := by decide
-- V-ADDI-6, and 95 S7 (V-ADDI-7) at pc 8191: R0 stays 0 and pc wraps (R26).
theorem test_addi_negative :
    afterStep (before 0#13 0x8000#16 0#16 [] 0x257F) (fun t => t.readReg 2#3) = some 0x7FFF#16 := by decide
theorem test_addi_to_zero_register :
    afterStep (before 8191#13 5#16 3#16 [] 0x2009) (fun t => (t.readReg 0#3, t.x, t.pc)) =
      some (0#16, #v[0#16, 5#16, 3#16, 0#16, 0#16, 0#16, 0#16, 0#16], 0#13) := by decide
-- V-SLTI-2 and V-SLTI-6.
theorem test_slti_large_register :
    afterStep (before 0#13 0xFFFF#16 0#16 [] 0xE57F) (fun t => t.readReg 2#3) = some 0#16 := by decide
theorem test_slti_immediate_is_unsigned :
    afterStep (before 0#13 63#16 0#16 [] 0xE540) (fun t => t.readReg 2#3) = some 1#16 := by decide
-- V-JR-1 with R1 for R5 (word 0x0408), and V-JR-5.
theorem test_jr_drops_high_bits :
    afterStep (before 3#13 0xE00A#16 0#16 [] 0x0408) (fun t => (t.pc, t.halted)) = some (10#13, false) := by decide
theorem test_jr_to_itself_runs_on :
    afterStep (before 9#13 9#16 0#16 [] 0x0408) (fun t => (t.pc, t.halted)) = some (9#13, false) := by decide
-- V-J-3 and V-J-2.
theorem test_j_to_itself_halts :
    afterStep (before 8191#13 0#16 0#16 [] 0x5FFF) (fun t => (t.pc, t.halted)) = some (8191#13, true) := by decide
theorem test_j_elsewhere_runs_on :
    afterStep (before 5#13 0#16 0#16 [] 0x4000) (fun t => (t.pc, t.halted)) = some (0#13, false) := by decide
-- V-JAL-1 and V-JAL-2.
theorem test_jal_to_itself_links :
    afterStep (before 10#13 0#16 0#16 [] 0x600A) (fun t => (t.pc, t.readReg 7#3, t.halted)) =
      some (10#13, 11#16, false) := by decide
theorem test_jal_link_wraps :
    afterStep (before 8191#13 0#16 0#16 [] 0x6000) (fun t => (t.pc, t.readReg 7#3)) = some (0#13, 0#16) := by decide
-- V-JEQ-8 and V-JEQ-2.
theorem test_jeq_taken_wraps :
    afterStep (before 10#13 1#16 1#16 [] 0xC540) (fun t => t.pc) = some 8139#13 := by decide
theorem test_jeq_not_taken :
    afterStep (before 5#13 7#16 8#16 [] 0xC57D) (fun t => t.pc) = some 6#13 := by decide
-- V-LS-2 and V-LS-5.
theorem test_lw_wraps :
    afterStep (before 0#13 0xFFFF#16 0#16 [(62, 0x1111#16)] 0x853F) (fun t => t.readReg 2#3) = some 0x1111#16 := by
  decide
theorem test_lw_uses_old_base :
    afterStep (before 0#13 0#16 40#16 [(40, 0x3333#16)] 0x8900) (fun t => t.readReg 2#3) = some 0x3333#16 := by decide
-- V-LS-7 and V-LS-9 (with the cell at 60: storing 0 removes its entry).
theorem test_sw_wraps :
    afterStep (before 0#13 0xFFFF#16 0x1234#16 [] 0xA503) (fun t => t.memRead 2#13) = some 0x1234#16 := by decide
theorem test_sw_of_zero_unlists :
    afterStep (before 0#13 60#16 0#16 [(60, 0x5555#16)] 0xA400) (fun t => t.mem) = some [(0, 0xA400#16)] := by decide

/-! ## The host's boundary -/

/-- A Loader line: `ram[`, the digits, `] = 16'b`, the 16 bits, `;`. -/
def loaderLine (address bits : List Char) : List Char :=
  ['r', 'a', 'm', '['] ++ address ++ [']', ' ', '=', ' ', '1', '6', '\'', 'b'] ++ bits ++ [';']

/-- The bits of 0x4000. -/
def bits4000 : List Char := ['0', '1', '0', '0', '0', '0', '0', '0', '0', '0', '0', '0', '0', '0', '0', '0']

-- 70_reset_and_hazards.md R135's worked line.
theorem test_loader_line : Loader.parseLine (loaderLine ['0'] bits4000) = some (0, 0x4000#16) := by decide
-- 95 S11: the second line has address 2.
theorem test_loader_out_of_sequence :
    Loader.load [loaderLine ['0'] bits4000, loaderLine ['2'] bits4000] = .error .outOfSequenceAddress := by rfl
-- R135 with 91_not_in_source.md: behind leading white space a line must still match the pattern, and a field with
-- another character than 0 and 1 does not open the address.
theorem test_loader_white_space_keeps_pattern : Loader.parseLine [' ', 'r', 'o', 'm'] = none := by
  unfold Loader.parseLine Loader.body
  cases h : Config.loaderPassesOver [' '] <;> simp [Loader.whiteSpace, h, Loader.lineParts, Loader.after]
theorem test_loader_open_field_keeps_address (words : List Word) :
    Loader.load [loaderLine ['5'] ('x' :: bits4000.drop 1)] ≠ .ok words := by
  have h : Loader.parseLine (loaderLine ['5'] ('x' :: bits4000.drop 1)) =
      (Loader.fieldWord ('x' :: bits4000.drop 1)).map (fun v => (5, v)) := Loader.parseLine_of_parts rfl rfl
  cases hf : Loader.fieldWord ('x' :: bits4000.drop 1) <;> rw [hf] at h <;>
    simp only [Loader.load, Loader.readLines, h] <;> simp
-- 95 S5: one step of the loaded halt idiom.
theorem test_boot_halts : afterStep (State.boot [0x4000#16]) (fun t => (t.pc, t.halted)) = some (0#13, true) := by decide
-- R137: 5 characters right-justified; 4 lowercase hexadecimal digits.
theorem test_report_decimal : Report.decimal5 11#16 = [' ', ' ', ' ', '1', '1'] := by decide
theorem test_report_hex : Report.hex4 0xBE0#16 = ['0', 'b', 'e', '0'] := by decide

/-! ## Witnesses: values that meet the hypotheses of the statements -/

/-- A decimal digit as a character. -/
def digit (n : Nat) : Char := if n = 0 then '0' else if n = 1 then '1' else if n = 2 then '2' else if n = 3 then '3'
  else if n = 4 then '4' else if n = 5 then '5' else if n = 6 then '6' else if n = 7 then '7'
  else if n = 8 then '8' else '9'

/-- Line `k` of a file, its address in four digits, its word 0x4000. -/
def lineAt (k : Nat) : List Char :=
  loaderLine [digit (k / 1000), digit (k / 100 % 10), digit (k / 10 % 10), digit (k % 10)] bits4000

theorem digit_reads : ∀ n, n < 10 → (digit n).isDigit = true ∧ (digit n).toNat - 48 = n := by decide

theorem lineParts_of_four_digits (a b c d : Char) (ha : a.isDigit = true) (hb : b.isDigit = true)
    (hc : c.isDigit = true) (hd : d.isDigit = true) :
    Loader.lineParts (loaderLine [a, b, c, d] bits4000) =
      some ((((0 * 10 + (a.toNat - 48)) * 10 + (b.toNat - 48)) * 10 + (c.toNat - 48)) * 10 + (d.toNat - 48),
        bits4000) := by
  have h : Loader.decimal 0 ([a, b, c, d] ++ [']', ' ', '=', ' ', '1', '6', '\'', 'b'] ++ bits4000 ++ [';']) =
      ((((0 * 10 + (a.toNat - 48)) * 10 + (b.toNat - 48)) * 10 + (c.toNat - 48)) * 10 + (d.toNat - 48),
        [']', ' ', '=', ' ', '1', '6', '\'', 'b'] ++ bits4000 ++ [';']) := by
    simp only [Loader.decimal, List.cons_append, ha, hb, hc, hd, if_true]
    rfl
  have h' : Loader.address ([a, b, c, d] ++ [']', ' ', '=', ' ', '1', '6', '\'', 'b'] ++ bits4000 ++ [';']) =
      some (Loader.decimal 0 ([a, b, c, d] ++ [']', ' ', '=', ' ', '1', '6', '\'', 'b'] ++ bits4000 ++ [';'])) :=
    if_pos ha
  have h0 : Loader.after ['r', 'a', 'm', '['] (loaderLine [a, b, c, d] bits4000) =
      some ([a, b, c, d] ++ [']', ' ', '=', ' ', '1', '6', '\'', 'b'] ++ bits4000 ++ [';']) := rfl
  unfold Loader.lineParts
  rw [h0, Option.bind_eq_bind, Option.bind_some, h', h]
  rfl

theorem parse_lineAt (k : Nat) (h : k < 10000) : Loader.parseLine (lineAt k) = some (k, 0x4000#16) := by
  obtain ⟨a1, a2⟩ := digit_reads (k / 1000) (by omega)
  obtain ⟨b1, b2⟩ := digit_reads (k / 100 % 10) (by omega)
  obtain ⟨c1, c2⟩ := digit_reads (k / 10 % 10) (by omega)
  obtain ⟨d1, d2⟩ := digit_reads (k % 10) (by omega)
  have e : (((0 * 10 + k / 1000) * 10 + k / 100 % 10) * 10 + k / 10 % 10) * 10 + k % 10 = k := by omega
  have hl := lineParts_of_four_digits _ _ _ _ a1 b1 c1 d1
  rw [a2, b2, c2, d2, e] at hl
  exact Loader.parseLine_of_parts (text := lineAt k) rfl hl

/-- A file of 8192 lines in sequence. -/
def fullFile : List (List Char) := (List.range 8192).map lineAt

theorem fullFile_length : fullFile.length = 8192 := by simp [fullFile]

theorem fullFile_line (k : Nat) (text : List Char) (h : fullFile[k]? = some text) :
    Loader.parseLine text = some (k, 0x4000#16) := by
  have hk : k < 8192 := by
    rw [← fullFile_length]
    exact (List.getElem?_eq_some_iff.mp h).1
  simp only [fullFile, List.getElem?_map, List.getElem?_range hk, Option.map_some, Option.some.injEq] at h
  rw [← h]
  exact parse_lineAt k (by omega)

-- BootHoldsImageAndZeroRegisters: an image, its last word and the first word beyond it.
theorem test_witness_boot :
    [0x2085#16, 0x4001#16].length ≤ 8192 ∧ (1#13).toNat < [0x2085#16, 0x4001#16].length ∧
    [0x2085#16, 0x4001#16].length ≤ (2#13).toNat := by decide
-- The encoding clauses of the thirteen operations, at the first and last words of the patterns.
theorem test_witness_words_rrr :
    0x1FF0#16 &&& 0xE00F#16 = 0x0000#16 ∧ 0x1FF1#16 &&& 0xE00F#16 = 0x0001#16 ∧
    0x1FF2#16 &&& 0xE00F#16 = 0x0002#16 ∧ 0x1FF3#16 &&& 0xE00F#16 = 0x0003#16 ∧
    0x1FF4#16 &&& 0xE00F#16 = 0x0004#16 := by decide
theorem test_witness_words_jr :
    0x1FF5#16 &&& 0xE00F#16 = 0x0005#16 ∧ 0x0006#16 &&& 0xE00E#16 = 0x0006#16 ∧
    0x1FF7#16 &&& 0xE00E#16 = 0x0006#16 ∧ 0x0008#16 &&& 0xE008#16 = 0x0008#16 ∧
    0x1FFF#16 &&& 0xE008#16 = 0x0008#16 := by decide
theorem test_witness_words_rri_j :
    0x3FFF#16 &&& 0xE000#16 = 0x2000#16 ∧ 0x5FFF#16 &&& 0xE000#16 = 0x4000#16 ∧
    0x7FFF#16 &&& 0xE000#16 = 0x6000#16 ∧ 0x9FFF#16 &&& 0xE000#16 = 0x8000#16 ∧
    0xBFFF#16 &&& 0xE000#16 = 0xA000#16 ∧ 0xDFFF#16 &&& 0xE000#16 = 0xC000#16 ∧
    0xFFFF#16 &&& 0xE000#16 = 0xE000#16 := by decide
-- EveryWordMatchesExactlyOneRow: a row and a word of it.
theorem test_witness_row :
    ({ kind := .jr, pattern := 0x0008#16, mask := 0xE008#16 } : OpRow) ∈ opcodeRows ∧
    ({ kind := .jr, pattern := 0x0008#16, mask := 0xE008#16 } : OpRow).matchesWord 0x1FFF#16 = true := by decide
-- OnlyJrIgnoresBits: two JR words with rA = 5 (V-JR-2, V-JR-3), and two words that are no JR.
theorem test_witness_jr_words :
    (0x1405#16).extractLsb' 13 3 = 0#3 ∧ 5 ≤ ((0x1405#16).extractLsb' 0 4).toNat ∧
    (0x17FF#16).extractLsb' 13 3 = 0#3 ∧ 5 ≤ ((0x17FF#16).extractLsb' 0 4).toNat ∧
    (0x17FF#16).extractLsb' 10 3 = (0x1405#16).extractLsb' 10 3 ∧
    (decode 0x0530#16).kind ≠ .jr ∧ 0x0531#16 ≠ 0x0530#16 := by decide
-- StepRunsDecodedInstruction, DatapathTakesTheSameStep, StepWritesOneRegisterOrOneWord: a running state at an ADD and
-- one at an SW.
theorem test_witness_running :
    (before 0#13 5#16 3#16 [] 0x0530).halted = false ∧ (Instr.add 1#3 2#3 3#3).wellFormed = true ∧
    decode ((before 0#13 5#16 3#16 [] 0x0530).memRead 0#13) = .add 1#3 2#3 3#3 ∧
    (before 0#13 5#16 3#16 [] 0xA503).halted = false ∧
    decode ((before 0#13 5#16 3#16 [] 0xA503).memRead 0#13) = .sw 1#3 2#3 3#7 := by decide
-- OnlySelfJumpHalts: a running state whose step halts, and one whose step does not.
theorem test_witness_halting :
    (before 8191#13 0#16 0#16 [] 0x5FFF).halted = false ∧
    afterStep (before 8191#13 0#16 0#16 [] 0x5FFF) State.halted = some true ∧
    (before 5#13 0#16 0#16 [] 0x4000).halted = false ∧
    afterStep (before 5#13 0#16 0#16 [] 0x4000) State.halted = some false := by decide
-- HaltedStateStaysAsItIs, HostReadsOnlyHaltedCore: a halted state (and a running one above).
theorem test_witness_halted : State.reset.halt.halted = true := by decide
-- RunResultIsUnique: the halt idiom at 0 has ended after one step and after two.
theorem test_witness_finishes :
    FinishesIn 1 (State.boot [0x4000#16]) (State.boot [0x4000#16]).halt ∧
    FinishesIn 2 (State.boot [0x4000#16]) (State.boot [0x4000#16]).halt := ⟨⟨rfl, rfl⟩, ⟨rfl, rfl⟩⟩

/-- A JAL to itself with its link already written: P7 of 95_test_vectors.md after one step. -/
def callLoop : State := (State.boot [0x6000#16]).writeReg 7#3 1#16

theorem callLoop_run (n : Nat) : Sys2Proof.core.run n callLoop = .next callLoop := by
  induction n with
  | zero => rfl
  | succ n ih =>
    have h : Sys2Proof.core.step callLoop = .next callLoop := rfl
    simp only [Host.Core.run, h]
    exact ih

-- RunWithoutSelfJumpNeverEnds.
theorem test_witness_endless :
    callLoop.halted = false ∧ ∀ (n : Nat) (t : State), Sys2Proof.core.run n callLoop = .next t →
      decode (t.memRead t.pc) ≠ .j t.pc := by
  refine ⟨rfl, fun n t h => ?_⟩
  rw [callLoop_run] at h
  injection h with h
  subst h
  decide
-- StepKeepsInvariant: the reset state and its step.
theorem test_witness_invariant_step :
    State.reset.inv = true ∧ step State.reset = .next { State.reset with pc := 1#13 } := ⟨by decide, rfl⟩
-- InvariantHoldsInReachableStates: one step of the halt idiom.
theorem test_witness_reachable :
    [0x4000#16].length ≤ 8192 ∧
    Sys2Proof.core.run 1 (State.boot [0x4000#16]) = .next (State.boot [0x4000#16]).halt := ⟨by decide, rfl⟩
-- CanonicalMemoriesReadingAlikeAreEqual: a memory with its first and last address listed, reached by two orders of
-- writing.
theorem test_witness_memories :
    Memory.wf (Memory.write (Memory.write [] 0#13 7#16) 8191#13 9#16) = true ∧
    Memory.wf (Memory.write (Memory.write [] 8191#13 9#16) 0#13 7#16) = true ∧
    ∀ a : Addr, Memory.read (Memory.write (Memory.write [] 0#13 7#16) 8191#13 9#16) a =
      Memory.read (Memory.write (Memory.write [] 8191#13 9#16) 0#13 7#16) a :=
  ⟨by decide, by decide, fun _ => rfl⟩
-- OnlyWriteDestinationChanges, RegisterZeroIsHardwired: an instruction with destination R0 and one without a destination.
theorem test_witness_destinations :
    writtenRegister (.add 1#3 2#3 0#3) = some 0#3 ∧ writtenRegister (.sw 1#3 2#3 3#7) = none := by decide
-- OnlyNamedRegistersAreRead: two states that differ in R5 only, and an instruction that names R1, R2, R3.
theorem test_witness_two_states :
    let s := before 0#13 5#16 3#16 [] 0x0530
    let s' := s.writeReg 5#3 9#16
    s'.pc = s.pc ∧ s'.halted = s.halted ∧ MemoryUnchanged s s' ∧
      (∀ r ∈ readRegisters (.add 1#3 2#3 3#3), s'.readReg r = s.readReg r) ∧ s'.readReg 5#3 ≠ s.readReg 5#3 :=
  ⟨rfl, rfl, fun _ => rfl, by decide, by decide⟩
-- LoadReturnsMostRecentStore: a destination other than R0; a load from the stored address and one from its neighbour.
theorem test_witness_load :
    (3#3 : RegIdx) ≠ 0#3 ∧
    effectiveAddress (before 0#13 5#16 3#16 [] 0) 1#3 3#7 = effectiveAddress (before 0#13 5#16 3#16 [] 0) 1#3 3#7 ∧
    effectiveAddress (before 0#13 5#16 3#16 [] 0) 1#3 4#7 ≠ effectiveAddress (before 0#13 5#16 3#16 [] 0) 1#3 3#7 := by
  decide
-- StoreIsSeenByNextFetch: `sw $0,$1,1` at 0 stores to the next address, `sw $0,$1,0` at 0 to its own (V-LS-10).
theorem test_witness_store_to_next :
    (before 0#13 0x4000#16 0#16 [] 0xA081).halted = false ∧
    decode ((before 0#13 0x4000#16 0#16 [] 0xA081).memRead 0#13) = .sw 0#3 1#3 1#7 ∧
    afterStep (before 0#13 0x4000#16 0#16 [] 0xA081) State.pc =
      some (effectiveAddress (before 0#13 0x4000#16 0#16 [] 0xA081) 0#3 1#7) := by decide
theorem test_witness_store_to_itself :
    (before 0#13 0x4000#16 0#16 [] 0xA080).halted = false ∧
    decode ((before 0#13 0x4000#16 0#16 [] 0xA080).memRead 0#13) = .sw 0#3 1#3 0#7 ∧
    effectiveAddress (before 0#13 0x4000#16 0#16 [] 0xA080) 0#3 0#7 = (before 0#13 0x4000#16 0#16 [] 0xA080).pc := by
  decide
-- AddressFoldOnceDiffersOnlyAbove16383: the boundary sums 16383 and 16384 and the ends -64 and 65598.
theorem test_witness_folds :
    int 16383#16 + sext 0#7 ≤ 16383 ∧ int 0#16 + sext 64#7 ≤ 16383 ∧ 16384 ≤ int 16384#16 + sext 0#7 ∧
    16384 ≤ int 65535#16 + sext 63#7 := by decide
-- RegisterFoldOnceIsModulus: a member of the list.
theorem test_witness_fold_member :
    int 0#16 - int 0xFFFF#16 ∈ [int 0#16 + int 0xFFFF#16, int 0#16 - int 0xFFFF#16, int 0#16 + sext 0#7] := by decide
-- LoaderAcceptsExactlySequentialFiles: a file of two lines and its image.
theorem test_witness_load_accepts :
    [lineAt 0, lineAt 1] ≠ [] ∧ Loader.load [lineAt 0, lineAt 1] = .ok [0x4000#16, 0x4000#16] :=
  ⟨List.cons_ne_nil _ _, rfl⟩
-- LoaderAbortsAtFirstOffendingLine: each clause after lines in sequence; the overflow after 8192 of them.
theorem test_witness_load_aborts :
    [lineAt 0].length ≤ 8192 ∧
    (∀ (k : Nat) (text : List Char), [lineAt 0][k]? = some text → ∃ v, Loader.parseLine text = some (k, v)) ∧
    Loader.parseLine ['r', 'o', 'm'] = none ∧ Loader.parseLine (lineAt 2) = some (2, 0x4000#16) ∧
    2 ≠ [lineAt 0].length := by
  refine ⟨by decide, fun k text h => ⟨0x4000#16, ?_⟩, by decide, parse_lineAt 2 (by decide), by decide⟩
  cases k with
  | zero =>
    simp only [List.getElem?_cons_zero, Option.some.injEq] at h
    rw [← h]
    exact parse_lineAt 0 (by decide)
  | succ k => simp at h
theorem test_witness_load_overflows :
    fullFile.length ≤ 8192 ∧
    (∀ (k : Nat) (text : List Char), fullFile[k]? = some text → ∃ v, Loader.parseLine text = some (k, v)) ∧
    Loader.parseLine (lineAt 8192) = some (fullFile.length, 0x4000#16) ∧ fullFile.length = 8192 :=
  ⟨Nat.le_of_eq fullFile_length, fun k text h => ⟨_, fullFile_line k text h⟩,
    by rw [fullFile_length]; exact parse_lineAt 8192 (by decide), fullFile_length⟩
-- The same where all three errors meet, the line after 8192 lines in sequence: malformed, and of another address.
theorem test_witness_load_aborts_on_full :
    fullFile.length ≤ 8192 ∧
    (∀ (k : Nat) (text : List Char), fullFile[k]? = some text → ∃ v, Loader.parseLine text = some (k, v)) ∧
    Loader.parseLine ['r', 'o', 'm'] = none ∧ Loader.parseLine (lineAt 2) = some (2, 0x4000#16) ∧
    2 ≠ fullFile.length :=
  ⟨Nat.le_of_eq fullFile_length, fun k text h => ⟨_, fullFile_line k text h⟩, by decide, parse_lineAt 2 (by decide),
    by rw [fullFile_length]; decide⟩
-- LoaderReadsFirstDigitAsBit15: the last address, and a numeral with a leading zero.
theorem test_witness_line :
    [8, 1, 9, 1] ≠ [] ∧ (∀ d ∈ [8, 1, 9, 1], d < 10) ∧ bits4000.length = 16 ∧ (∀ c ∈ bits4000, c = '0' ∨ c = '1') :=
  ⟨by decide, by simp, by decide, by simp [bits4000]⟩
theorem test_witness_line_leading_zero :
    [0, 7] ≠ [] ∧ (∀ d ∈ [0, 7], d < 10) ∧ decimalValue [0, 7] = 7 ∧ decimalValue [8, 1, 9, 1] = 8191 := by
  exact ⟨by decide, by simp, by decide, by decide⟩
-- LoaderOpenLinesKeepPatternAndAddress: white space and none before a line, an empty line, a field with an 'x'.
theorem test_witness_open_lines :
    (∀ c ∈ [' ', '\t'], c ∈ [' ', '\t', '\n', '\x0b', '\x0c', '\r']) ∧
    (∀ c, (lineAt 0).head? = some c → c ∉ [' ', '\t', '\n', '\x0b', '\x0c', '\r']) ∧
    (∀ c, ([] : List Char).head? = some c → c ∉ [' ', '\t', '\n', '\x0b', '\x0c', '\r']) ∧
    ('x' :: bits4000.drop 1).length = 16 := by
  refine ⟨by simp, fun c h => ?_, by simp, by decide⟩
  have h' : 'r' = c := Option.some.inj h
  rw [← h']
  decide
-- SignedImmediateRoundTrip: the ends of the range.
theorem test_witness_signed_ends : (-64 : Int) ≤ -64 ∧ (-64 : Int) ≤ 63 ∧ (-64 : Int) ≤ 63 ∧ (63 : Int) ≤ 63 := by decide
-- ReportFieldsHaveFixedWidth: the last register of a final state; the last line, cell and space are in range.
theorem test_witness_report :
    ({ pc := 0#13, registers := List.replicate 8 7#16, mem := [] } : FinalState).registers[7]? = some 7#16 ∧
    15 < 16 ∧ 7 < 8 ∧ 6 < 7 := by decide
-- R137, worked by hand: 65535 fills the field, 258 leaves two spaces; cells 0 and 7 of a line.
theorem test_report_register :
    Report.decimal5 0xFFFF#16 = ['6', '5', '5', '3', '5'] ∧ Report.decimal5 258#16 = [' ', ' ', '2', '5', '8'] := by
  decide
theorem test_report_cells :
    (Report.memoryLine [(8, 0x00af#16), (15, 0x4000#16)] 8).take 5 = ['0', '0', 'a', 'f', ' '] ∧
    (Report.memoryLine [(8, 0x00af#16), (15, 0x4000#16)] 8).drop 34 = [' ', '4', '0', '0', '0'] := by decide

end Sys2Proof.Tests
end

/-! ## State rules: what an instruction, a step and a run can do to a state -/

namespace Sys2Proof.Machine

/-- Word `a` of a booted core's memory is word `a` of the image, or 0 beyond it (10_state.md R33). -/
theorem State.memRead_boot (image : List Word) (a : Addr) :
    (State.boot image).memRead a = image.getD a.toNat 0#16 := by
  rw [State.memRead, State.boot_mem, Memory.read, Memory.ofImage, Memory.lookup_ofImageFrom]
  simp

/-- A booted core stores 0 in every register (10_state.md R33). -/
@[simp] theorem State.boot_x (image : List Word) :
    (State.boot image).x = Vector.replicate Config.numRegs 0#16 := rfl

@[simp] theorem State.readReg_boot (image : List Word) (r : RegIdx) : (State.boot image).readReg r = 0#16 := by
  simp [State.readReg]

/-- A write-back to R0 only moves on to the next instruction (10_state.md R21). -/
@[simp] theorem State.writeBack_zero (s : State) (v : Word) : s.writeBack 0#3 v = s.advance := rfl

/-- All that an instruction can do: write its destination back and move on; link and jump; store and move on; only
set pc; or halt. It always answers a next state. -/
theorem exec_cases (i : Instr) (s : State) :
    (∃ r v, writtenRegister i = some r ∧ exec i s = .next (s.writeBack r v)) ∨
    (∃ imm13, i = .jal imm13 ∧ exec i s = .next ((s.writeReg Config.linkReg (linkValue s.pc)).setPc imm13)) ∨
    (∃ rA rB imm7, i = .sw rA rB imm7 ∧
      exec i s = .next (s.memWrite (effectiveAddress s rA imm7) (s.readReg rB)).advance) ∨
    (∃ t, writtenRegister i = none ∧ exec i s = .next (s.setPc t)) ∨
    (i = .j s.pc ∧ exec i s = .next (s.halt.setPc s.pc)) := by
  cases i with
  | add rA rB rC => exact .inl ⟨_, _, rfl, rfl⟩
  | sub rA rB rC => exact .inl ⟨_, _, rfl, rfl⟩
  | or rA rB rC => exact .inl ⟨_, _, rfl, rfl⟩
  | and rA rB rC => exact .inl ⟨_, _, rfl, rfl⟩
  | slt rA rB rC => exact .inl ⟨_, _, rfl, rfl⟩
  | addi rA rB imm7 => exact .inl ⟨_, _, rfl, rfl⟩
  | slti rA rB imm7 => exact .inl ⟨_, _, rfl, rfl⟩
  | lw rA rB imm7 => exact .inl ⟨_, _, rfl, rfl⟩
  | jal imm13 => exact .inr (.inl ⟨_, rfl, rfl⟩)
  | sw rA rB imm7 => exact .inr (.inr (.inl ⟨_, _, _, rfl, rfl⟩))
  | jr rA rB rC func => exact .inr (.inr (.inr (.inl ⟨_, rfl, rfl⟩)))
  | jeq rA rB imm7 =>
    refine .inr (.inr (.inr (.inl ?_)))
    by_cases h : equalPatterns (s.readReg rA) (s.readReg rB) = true
    · exact ⟨branchTarget s.pc imm7, rfl, by simp only [exec, execJeq, if_pos h]⟩
    · exact ⟨seqPc s.pc, rfl, by simp only [exec, execJeq, if_neg h, State.advance]⟩
  | j imm13 =>
    refine .inr (.inr (.inr ?_))
    by_cases h : imm13 = s.pc
    · exact .inr ⟨congrArg _ h, by simp only [exec, execJ, h, if_true]⟩
    · exact .inl ⟨imm13, rfl, by simp only [exec, execJ, if_neg h]⟩

/-- Every instruction answers a next state, and none changes the stored value of R0 (10_state.md R21, R34). -/
theorem exec_keeps_x_zero (i : Instr) (s : State) : ∃ t, exec i s = .next t ∧ t.x[0] = s.x[0] := by
  obtain ⟨r, v, -, he⟩ | ⟨imm13, -, he⟩ | ⟨rA, rB, imm7, -, he⟩ | ⟨p, -, he⟩ | ⟨-, he⟩ := exec_cases i s
  all_goals exact ⟨_, he, by simp⟩

/-- An instruction whose destination is R0 only moves on to the next instruction: a JAL, the one writer that jumps,
has destination R7 (10_state.md R21). -/
theorem exec_eq_advance_of_writtenRegister_zero {i : Instr} (s : State) (h : writtenRegister i = some 0#3) :
    exec i s = .next s.advance := by
  obtain ⟨r, v, hr, he⟩ | ⟨imm13, rfl, -⟩ | ⟨rA, rB, imm7, rfl, -⟩ | ⟨p, hn, -⟩ | ⟨rfl, -⟩ := exec_cases i s
  · obtain rfl : r = 0#3 := Option.some.inj (hr.symm.trans h)
    rw [he, State.writeBack_zero]
  · exact absurd (Option.some.inj h) (by decide : Config.linkReg ≠ 0#3)
  · exact absurd h nofun
  · exact absurd (hn.symm.trans h) nofun
  · exact absurd h nofun

theorem step_of_halted {s : State} (h : s.halted = true) : step s = .next s := if_pos h

theorem step_of_running {s : State} (h : s.halted = false) : step s = exec (decode (s.memRead s.pc)) s :=
  if_neg (by simp [h])

/-- No step changes the stored value of R0. -/
theorem step_keeps_x_zero {s t : State} (h : step s = .next t) : t.x[0] = s.x[0] := by
  cases hs : s.halted with
  | true =>
    obtain rfl : s = t := Host.Outcome.next.inj ((step_of_halted hs).symm.trans h)
    rfl
  | false =>
    obtain ⟨u, hu, hx⟩ := exec_keeps_x_zero (decode (s.memRead s.pc)) s
    obtain rfl : u = t := Host.Outcome.next.inj (hu.symm.trans ((step_of_running hs).symm.trans h))
    exact hx

/-- A run of `n + 1` steps is one step and a run of `n`. -/
theorem run_succ_eq_next_iff (n : Nat) (s t : State) :
    Sys2Proof.core.run (n + 1) s = .next t ↔ ∃ u, step s = .next u ∧ Sys2Proof.core.run n u = .next t := by
  simp only [Host.Core.run, Sys2Proof.core]
  cases step s with
  | next u => exact ⟨fun h => ⟨u, rfl, h⟩, fun ⟨_, hu, h⟩ => Host.Outcome.next.inj hu ▸ h⟩
  | fault r => exact nomatch r
  | refused r => exact ⟨nofun, nofun⟩

/-- What every step keeps, every run keeps. -/
theorem run_induction {P : State → Prop} (keeps : ∀ s t, P s → step s = .next t → P t) {n : Nat} {s t : State}
    (hs : P s) (h : Sys2Proof.core.run n s = .next t) : P t := by
  induction n generalizing s with
  | zero => exact Host.Outcome.next.inj h ▸ hs
  | succ n ih =>
    obtain ⟨u, hu, hrun⟩ := (run_succ_eq_next_iff n s t).mp h
    exact ih (keeps s u hs hu) hrun

/-- In every state a run from a loaded image reaches, R0 stores 0 (10_state.md R34). -/
theorem run_boot_x_zero {image : List Word} {n : Nat} {t : State}
    (h : Sys2Proof.core.run n (State.boot image) = .next t) : t.x[0] = 0#16 :=
  run_induction (P := fun s => s.x[0] = 0#16) (fun _ _ hs hstep => (step_keeps_x_zero hstep).trans hs) rfl h

end Sys2Proof.Machine

/-! ## The statements about the state -/

namespace Sys2Proof.Proofs

open Sys2Proof.Machine

/-- Settles O1: the memory clauses are the two sides of the image's length in `State.memRead_boot`. -/
theorem bootHoldsImageAndZeroRegisters : Obligations.BootHoldsImageAndZeroRegisters := by
  intro image _
  refine ⟨rfl, State.readReg_boot image, rfl, fun a ha => ?_, fun a ha => ?_, step_of_running rfl⟩
  · rw [State.memRead_boot, List.getD_eq_getElem?_getD, List.getElem?_eq_getElem ha, Option.getD_some]
  · rw [State.memRead_boot, List.getD_eq_getElem?_getD, List.getElem?_eq_none ha, Option.getD_none]

/-- Settles O31: R0's stored value by induction over the run's steps, the ranges by the types' widths. -/
theorem invariantHoldsInReachableStates : Obligations.InvariantHoldsInReachableStates := by
  intro image n t _ hrun
  exact ⟨run_boot_x_zero hrun, State.readReg_zero t, fun r => (t.readReg r).isLt, fun a => (t.memRead a).isLt,
    t.pc.isLt⟩

/-- Settles O35, from what an instruction with destination R0 does and from `exec_keeps_x_zero`. -/
theorem registerZeroIsHardwired : Obligations.RegisterZeroIsHardwired :=
  ⟨State.readReg_zero,
    fun _ s h => ⟨s.advance, exec_eq_advance_of_writtenRegister_zero s h, rfl, seqPc_toNat s.pc, fun _ => rfl, rfl⟩,
    exec_keeps_x_zero⟩

end Sys2Proof.Proofs

/-! ## Execution rules: where an instruction goes next, and when it halts -/

namespace Sys2Proof.Machine

/-- The signed reading of a 7-bit field is its two's complement value (00_scope.md R11, 30_encoding.md R57). -/
theorem sext_eq_toInt (v : Imm7) : sext v = v.toInt := by
  rw [sext_eq, BitVec.toInt_eq_toNat_cond]
  split <;> split <;> omega

theorem State.writeBack_pc_toNat (s : State) (dest : RegIdx) (v : Word) :
    (s.writeBack dest v).pc.toNat = (s.pc.toNat + 1) % 8192 := by
  rw [State.writeBack_pc, seqPc_toNat]

/-- A JEQ only sets pc: to its target or to the next instruction (43_control_transfer.md R95). -/
theorem exec_jeq (rA rB : RegIdx) (imm7 : Imm7) (s : State) :
    exec (.jeq rA rB imm7) s =
      .next (s.setPc (if s.readReg rA = s.readReg rB then branchTarget s.pc imm7 else seqPc s.pc)) := by
  simp only [exec, execJeq, equalPatterns_iff]
  split <;> rfl

/-- A J to its own address only sets the halted status (40_execution_cycle.md R79). -/
theorem exec_j_self (s : State) : exec (.j s.pc) s = .next s.halt := by
  rw [exec, execJ, if_pos rfl]
  rfl

/-- Every instruction but a J to its own address keeps the halted status (40_execution_cycle.md R79). -/
theorem exec_keeps_halted {i : Instr} {s : State} (hi : i ≠ .j s.pc) :
    ∃ t, exec i s = .next t ∧ t.halted = s.halted := by
  obtain ⟨r, v, -, he⟩ | ⟨imm13, -, he⟩ | ⟨rA, rB, imm7, -, he⟩ | ⟨p, -, he⟩ | ⟨hj, -⟩ := exec_cases i s
  · exact ⟨_, he, State.writeBack_halted s r v⟩
  · exact ⟨_, he, State.writeReg_halted s _ _⟩
  · exact ⟨_, he, rfl⟩
  · exact ⟨_, he, rfl⟩
  · exact absurd hj hi

theorem step_of_selfJump {s : State} (hs : s.halted = false) (hj : decode (s.memRead s.pc) = .j s.pc) :
    step s = .next s.halt := by
  rw [step_of_running hs, hj, exec_j_self]

/-- A running core that is not at a J to its own address runs on. -/
theorem step_keeps_running {s : State} (hs : s.halted = false) (hj : decode (s.memRead s.pc) ≠ .j s.pc) :
    ∃ t, step s = .next t ∧ t.halted = false := by
  obtain ⟨t, he, ht⟩ := exec_keeps_halted hj
  exact ⟨t, (step_of_running hs).trans he, ht.trans hs⟩

end Sys2Proof.Machine

/-! ## The statements about the execution cycle -/

namespace Sys2Proof.Proofs

open Sys2Proof.Machine

/-- Settles O25: the fetched instruction is a J to its own address, or the core runs on. -/
theorem onlySelfJumpHalts : Obligations.OnlySelfJumpHalts := by
  intro s hs
  by_cases hj : decode (s.memRead s.pc) = .j s.pc
  · exact ⟨s.halt, step_of_selfJump hs hj, iff_of_true s.halt_halted hj,
      fun _ => ⟨s.halt_pc, s.readReg_halt, s.memRead_halt⟩⟩
  · obtain ⟨t, hstep, ht⟩ := step_keeps_running hs hj
    have hne : t.halted ≠ true := Bool.eq_false_iff.mp ht
    exact ⟨t, hstep, iff_of_false hne hj, fun h => absurd h hne⟩

/-- Settles O28, by induction on the number of steps: what the run never reaches, the run from the next state never
reaches. -/
theorem runWithoutSelfJumpNeverEnds : Obligations.RunWithoutSelfJumpNeverEnds := by
  intro s hs hrun n
  induction n generalizing s with
  | zero => exact ⟨s, rfl, hs⟩
  | succ n ih =>
    obtain ⟨u, hstep, hu⟩ := step_keeps_running hs (hrun 0 s rfl)
    obtain ⟨t, ht, hhalted⟩ :=
      ih u hu fun m t ht => hrun (m + 1) t ((run_succ_eq_next_iff m s t).mpr ⟨u, hstep, ht⟩)
    exact ⟨t, (run_succ_eq_next_iff n s t).mpr ⟨u, hstep, ht⟩, hhalted⟩

/-- Settles O33, row by row of the table. -/
theorem nextPcTable : Obligations.NextPcTable := by
  intro i s
  cases i with
  | add rA rB rC => exact ⟨_, rfl, s.writeBack_pc_toNat _ _⟩
  | sub rA rB rC => exact ⟨_, rfl, s.writeBack_pc_toNat _ _⟩
  | or rA rB rC => exact ⟨_, rfl, s.writeBack_pc_toNat _ _⟩
  | and rA rB rC => exact ⟨_, rfl, s.writeBack_pc_toNat _ _⟩
  | slt rA rB rC => exact ⟨_, rfl, s.writeBack_pc_toNat _ _⟩
  | addi rA rB imm7 => exact ⟨_, rfl, s.writeBack_pc_toNat _ _⟩
  | slti rA rB imm7 => exact ⟨_, rfl, s.writeBack_pc_toNat _ _⟩
  | lw rA rB imm7 => exact ⟨_, rfl, s.writeBack_pc_toNat _ _⟩
  | sw rA rB imm7 => exact ⟨_, rfl, seqPc_toNat s.pc⟩
  | jr rA rB rC func => exact ⟨_, rfl, registerTarget_toNat s rA⟩
  | j imm13 => exact ⟨_, rfl, rfl⟩
  | jal imm13 => exact ⟨_, rfl, rfl⟩
  | jeq rA rB imm7 =>
    refine ⟨_, exec_jeq rA rB imm7 s, ?_⟩
    rw [State.setPc_pc, apply_ite BitVec.toNat, branchTarget_toNat, sext_eq_toInt, seqPc_toNat]

/-- Settles O22: a running core's step is `step_of_running`. -/
theorem stepRunsDecodedInstruction : Obligations.StepRunsDecodedInstruction := by
  intro s i hs _ hi
  rw [step_of_running hs, hi]

end Sys2Proof.Proofs

/-! ## Decoding rules of the register-register words: what the fixed bits of a word determine -/

namespace Sys2Proof.Machine

/-- A mask that keeps all of bits 15..13 leaves the opcode readable in the pattern (30_encoding.md R63). -/
theorem opField_of_and_eq {w mask pattern : Word} (hmask : opField mask = BitVec.allOnes 3)
    (h : w &&& mask = pattern) : opField w = opField pattern := by
  rw [← h, opField, opField, BitVec.extractLsb'_and, ← opField, ← opField, hmask, BitVec.and_allOnes]

/-- A mask that keeps all of bits 3..0 leaves the function selector readable in the pattern (30_encoding.md R63). -/
theorem funcField_of_and_eq {w mask pattern : Word} (hmask : funcField mask = BitVec.allOnes 4)
    (h : w &&& mask = pattern) : funcField w = funcField pattern := by
  rw [← h, funcField, funcField, BitVec.extractLsb'_and, ← funcField, ← funcField, hmask, BitVec.and_allOnes]

/-- The mask 0xE00F keeps all that the classification looks at, so a word is classified as its pattern is. -/
theorem kindOf_of_rrr_pattern {w pattern : Word} (h : w &&& 0xE00F#16 = pattern) :
    kindOf (opField w) (funcField w) = kindOf (opField pattern) (funcField pattern) := by
  rw [opField_of_and_eq rfl h, funcField_of_and_eq rfl h]

theorem decode_of_kindOf_add {w : Word} (h : kindOf (opField w) (funcField w) = .add) :
    decode w = .add (rAField w) (rBField w) (rCField w) := by
  rw [decode, h]

theorem decode_of_kindOf_sub {w : Word} (h : kindOf (opField w) (funcField w) = .sub) :
    decode w = .sub (rAField w) (rBField w) (rCField w) := by
  rw [decode, h]

theorem decode_of_kindOf_or {w : Word} (h : kindOf (opField w) (funcField w) = .or) :
    decode w = .or (rAField w) (rBField w) (rCField w) := by
  rw [decode, h]

theorem decode_of_kindOf_and {w : Word} (h : kindOf (opField w) (funcField w) = .and) :
    decode w = .and (rAField w) (rBField w) (rCField w) := by
  rw [decode, h]

theorem decode_of_kindOf_slt {w : Word} (h : kindOf (opField w) (funcField w) = .slt) :
    decode w = .slt (rAField w) (rBField w) (rCField w) := by
  rw [decode, h]

/-! ## What a write-back does, in the words of the statements -/

/-- A write-back gives the destination the value, moves to the next instruction and leaves all else unchanged
(40_execution_cycle.md R70, R74). -/
theorem State.writeBack_effect (s : State) (dest : RegIdx) {v : Word} {n : Nat} (hv : v.toNat = n) :
    RegistersAfter s (s.writeBack dest v) dest n ∧ PcSequential s (s.writeBack dest v) ∧
      MemoryUnchanged s (s.writeBack dest v) ∧ (s.writeBack dest v).halted = s.halted := by
  have hregs : RegistersAfter s (s.writeBack dest v) dest n := by
    intro r
    rw [State.readReg_writeBack, apply_ite BitVec.toNat, hv]
  exact ⟨hregs, s.writeBack_pc_toNat dest v, s.memRead_writeBack dest v, s.writeBack_halted dest v⟩

/-- The exact sum folded is the sum modulo 65536 (00_scope.md R12). -/
theorem wrap16_int_add_toNat (p q : Word) : (wrap16 (int p + int q)).toNat = (p.toNat + q.toNat) % 65536 := by
  rw [wrap16_int_add, BitVec.toNat_add]

end Sys2Proof.Machine

/-! ## The statements about the register-register operations -/

namespace Sys2Proof.Proofs

open Sys2Proof.Machine

/-- Settles O4: the value written back is the sum modulo 65536. -/
theorem addWritesSumModulo65536 : Obligations.AddWritesSumModulo65536 :=
  ⟨fun _ hw => decode_of_kindOf_add (kindOf_of_rrr_pattern hw),
    fun s _ _ rC => ⟨_, rfl, s.writeBack_effect rC (wrap16_int_add_toNat _ _)⟩⟩

/-- Settles O5: the value written back is the exact difference folded by `wrap16_toNat`. -/
theorem subWritesDifferenceModulo65536 : Obligations.SubWritesDifferenceModulo65536 :=
  ⟨fun _ hw => decode_of_kindOf_sub (kindOf_of_rrr_pattern hw),
    fun s _ _ rC => ⟨_, rfl, s.writeBack_effect rC (wrap16_toNat _)⟩⟩

/-- Settles O6: the value written back is the bit-vector or, read bit by bit. -/
theorem orWritesBitwiseOr : Obligations.OrWritesBitwiseOr :=
  ⟨fun _ hw => decode_of_kindOf_or (kindOf_of_rrr_pattern hw),
    fun s _ _ rC => ⟨_, _, rfl, fun _ _ => BitVec.getLsbD_or, s.writeBack_effect rC rfl⟩⟩

/-- Settles O7: the value written back is the bit-vector and, read bit by bit. -/
theorem andWritesBitwiseAnd : Obligations.AndWritesBitwiseAnd :=
  ⟨fun _ hw => decode_of_kindOf_and (kindOf_of_rrr_pattern hw),
    fun s _ _ rC => ⟨_, _, rfl, fun _ _ => BitVec.getLsbD_and, s.writeBack_effect rC rfl⟩⟩

/-- Settles O8: the value written back is 1 or 0 by the unsigned comparison. -/
theorem sltWritesUnsignedLess : Obligations.SltWritesUnsignedLess :=
  ⟨fun _ hw => decode_of_kindOf_slt (kindOf_of_rrr_pattern hw),
    fun s _ _ rC => ⟨_, rfl, s.writeBack_effect rC (setLessUnsigned_toNat _ _)⟩⟩

end Sys2Proof.Proofs

/-! ## Decoding rules of the register-immediate words, and the immediate as the statements read it -/

namespace Sys2Proof.Machine

/-- The mask 0xE000 keeps the opcode alone, so where the pattern's opcode fixes the operation for every function
selector, a word is classified as its pattern is (30_encoding.md R63). -/
theorem kindOf_of_opcode_pattern {w pattern : Word} {kind : Kind}
    (hkind : ∀ func, kindOf (opField pattern) func = kind) (h : w &&& 0xE000#16 = pattern) : kindOf (opField w) (funcField w) = kind := by
  rw [opField_of_and_eq rfl h, hkind]

theorem decode_of_kindOf_addi {w : Word} (h : kindOf (opField w) (funcField w) = .addi) :
    decode w = .addi (rAField w) (rBField w) (imm7Field w) := by
  rw [decode, h]

theorem decode_of_kindOf_slti {w : Word} (h : kindOf (opField w) (funcField w) = .slti) :
    decode w = .slti (rAField w) (rBField w) (imm7Field w) := by
  rw [decode, h]

/-- The exact sum of a word and a signed immediate folded is the sum with its two's complement value modulo 65536
(00_scope.md R11, R12). -/
theorem wrap16_int_add_sext_toNat (p : Word) (v : Imm7) :
    (wrap16 (int p + sext v)).toNat = (((p.toNat : Int) + v.toInt) % 65536).toNat := by
  rw [wrap16_toNat, sext_eq_toInt, int]

/-- Against a zero-extended immediate the comparison is with the immediate's own value 0..127 (00_scope.md R11). -/
theorem setLessUnsigned_zext16_toNat (p : Word) (v : Imm7) :
    (setLessUnsigned p (zext16 v)).toNat = if p.toNat < v.toNat then 1 else 0 := by
  rw [setLessUnsigned_toNat, zext16_toNat v (by decide)]

end Sys2Proof.Machine

/-! ## The statements about the register-immediate operations -/

namespace Sys2Proof.Proofs

open Sys2Proof.Machine

/-- Settles O9: the value written back is the sum with the signed immediate modulo 65536. -/
theorem addiWritesSumWithSignedImmediate : Obligations.AddiWritesSumWithSignedImmediate :=
  ⟨fun _ hw => decode_of_kindOf_addi (kindOf_of_opcode_pattern (fun _ => rfl) hw),
    fun s _ rB _ => ⟨_, rfl, s.writeBack_effect rB (wrap16_int_add_sext_toNat _ _)⟩⟩

/-- Settles O10: the value written back is 1 or 0 by the comparison with the unsigned immediate. -/
theorem sltiWritesUnsignedLessImmediate : Obligations.SltiWritesUnsignedLessImmediate :=
  ⟨fun _ hw => decode_of_kindOf_slti (kindOf_of_opcode_pattern (fun _ => rfl) hw),
    fun s _ rB _ => ⟨_, rfl, s.writeBack_effect rB (setLessUnsigned_zext16_toNat _ _)⟩⟩

end Sys2Proof.Proofs

/-! ## Decoding rules of the control transfer words, and what setting pc leaves unchanged -/

namespace Sys2Proof.Machine

/-- A mask that keeps all of the opcode but only some of the function selector's bits still fixes the operation, if
every selector that agrees with the pattern in the kept bits is classified alike (30_encoding.md R63). -/
theorem kindOf_of_masked_func {w mask pattern : Word} {kind : Kind} (hmask : opField mask = BitVec.allOnes 3)
    (hkind : ∀ func, func &&& funcField mask = funcField pattern → kindOf (opField pattern) func = kind)
    (h : w &&& mask = pattern) : kindOf (opField w) (funcField w) = kind := by
  have hfunc : funcField w &&& funcField mask = funcField pattern := by
    rw [← h, funcField, funcField, funcField, BitVec.extractLsb'_and]
  rw [opField_of_and_eq hmask h, hkind _ hfunc]

/-- JR's three patterns hold the function selectors 5, 6 and 7, and 8 to 15 (30_encoding.md R62, R64). -/
theorem kindOf_of_jr_patterns {w : Word}
    (h : w &&& 0xE00F#16 = 0x0005#16 ∨ w &&& 0xE00E#16 = 0x0006#16 ∨ w &&& 0xE008#16 = 0x0008#16) :
    kindOf (opField w) (funcField w) = .jr := by
  obtain h5 | h67 | h8to15 := h
  · exact kindOf_of_rrr_pattern h5
  · exact kindOf_of_masked_func rfl (by decide) h67
  · exact kindOf_of_masked_func rfl (by decide) h8to15

theorem decode_of_kindOf_jr {w : Word} (h : kindOf (opField w) (funcField w) = .jr) :
    decode w = .jr (rAField w) (rBField w) (rCField w) (funcField w) := by
  rw [decode, h]

theorem decode_of_kindOf_j {w : Word} (h : kindOf (opField w) (funcField w) = .j) : decode w = .j (imm13Field w) := by
  rw [decode, h]

theorem decode_of_kindOf_jal {w : Word} (h : kindOf (opField w) (funcField w) = .jal) :
    decode w = .jal (imm13Field w) := by
  rw [decode, h]

theorem decode_of_kindOf_jeq {w : Word} (h : kindOf (opField w) (funcField w) = .jeq) :
    decode w = .jeq (rAField w) (rBField w) (imm7Field w) := by
  rw [decode, h]

/-- Setting pc changes neither a register nor a memory word nor the halted status (00_scope.md R15). -/
theorem State.setPc_frame (s : State) (t : Addr) :
    RegistersUnchanged s (s.setPc t) ∧ MemoryUnchanged s (s.setPc t) ∧ (s.setPc t).halted = s.halted :=
  ⟨s.readReg_setPc t, s.memRead_setPc t, s.setPc_halted t⟩

/-- A J to another address only sets pc (43_control_transfer.md R93). -/
theorem exec_j_of_ne {imm13 : Addr} {s : State} (h : imm13 ≠ s.pc) : exec (.j imm13) s = .next (s.setPc imm13) := by
  rw [exec, execJ, if_neg h]

/-- Of the registers a JAL changes R7 alone, which gets the address behind the JAL (43_control_transfer.md R94). -/
theorem State.link_registersAfter (s : State) (target : Addr) :
    RegistersAfter s ((s.writeReg Config.linkReg (linkValue s.pc)).setPc target) 7#3 ((s.pc.toNat + 1) % 8192) := by
  intro r
  rw [State.readReg_setPc, State.readReg_writeReg, apply_ite BitVec.toNat, linkValue_toNat]

end Sys2Proof.Machine

/-! ## The statements about the control transfers -/

namespace Sys2Proof.Proofs

open Sys2Proof.Machine

/-- Settles O11: JR only sets pc, to the low 13 bits of its register. -/
theorem jrJumpsToRegister : Obligations.JrJumpsToRegister :=
  ⟨fun _ hw => decode_of_kindOf_jr (kindOf_of_jr_patterns hw),
    fun s rA _ _ _ => ⟨_, rfl, registerTarget_toNat s rA, s.setPc_frame _⟩⟩

/-- Settles O12: a J to its own address only halts, and a J elsewhere only sets pc. -/
theorem jJumpsOrHalts : Obligations.JJumpsOrHalts := by
  refine ⟨fun _ hw => decode_of_kindOf_j (kindOf_of_opcode_pattern (fun _ => rfl) hw), fun s imm13 => ?_⟩
  by_cases hself : imm13 = s.pc
  · subst hself
    exact ⟨s.halt, exec_j_self s, s.halt_pc, iff_of_true s.halt_halted (.inl rfl), s.readReg_halt, s.memRead_halt⟩
  · obtain ⟨hregs, hmem, hhalted⟩ := s.setPc_frame imm13
    have hne : imm13.toNat ≠ s.pc.toNat := mt BitVec.eq_of_toNat_eq hself
    exact ⟨s.setPc imm13, exec_j_of_ne hself, s.setPc_pc imm13, by rw [hhalted, or_iff_right hne], hregs, hmem⟩

/-- Settles O13: JAL writes the link register and sets pc, whatever its target. -/
theorem jalLinksAndJumps : Obligations.JalLinksAndJumps :=
  ⟨fun _ hw => decode_of_kindOf_jal (kindOf_of_opcode_pattern (fun _ => rfl) hw),
    fun s imm13 => ⟨_, rfl, s.link_registersAfter imm13, State.setPc_pc _ imm13, s.memRead_writeReg _ _,
      s.writeReg_halted _ _⟩⟩

/-- Settles O14: JEQ only sets pc, to what the next-PC table says. -/
theorem jeqBranchesWhenEqual : Obligations.JeqBranchesWhenEqual := by
  refine ⟨fun _ hw => decode_of_kindOf_jeq (kindOf_of_opcode_pattern (fun _ => rfl) hw), fun s rA rB imm7 => ?_⟩
  obtain ⟨t, ht, hpc⟩ := nextPcTable (.jeq rA rB imm7) s
  obtain rfl := Host.Outcome.next.inj ((exec_jeq rA rB imm7 s).symm.trans ht)
  exact ⟨_, ht, hpc, s.setPc_frame _⟩

end Sys2Proof.Proofs

/-! ## Decoding rules of the load and store words, the effective address and what a store does -/

namespace Sys2Proof.Machine

theorem decode_of_kindOf_lw {w : Word} (h : kindOf (opField w) (funcField w) = .lw) :
    decode w = .lw (rAField w) (rBField w) (imm7Field w) := by
  rw [decode, h]

theorem decode_of_kindOf_sw {w : Word} (h : kindOf (opField w) (funcField w) = .sw) :
    decode w = .sw (rAField w) (rBField w) (imm7Field w) := by
  rw [decode, h]

/-- The effective address is the base plus the immediate's two's complement value modulo 8192 (20_memory.md R39). -/
theorem effectiveAddress_toNat_of_toInt (s : State) (rA : RegIdx) (imm7 : Imm7) :
    (effectiveAddress s rA imm7).toNat = ((((s.readReg rA).toNat : Int) + imm7.toInt) % 8192).toNat := by
  rw [effectiveAddress_toNat, sext_eq_toInt]

/-- A memory write followed by the move to the next instruction changes one word of memory and pc, and leaves all else
unchanged (44_load_store.md R97). -/
theorem State.memWrite_advance_effect (s : State) (a : Addr) (v : Word) :
    MemoryAfter s (s.memWrite a v).advance a v ∧ PcSequential s (s.memWrite a v).advance ∧
      RegistersUnchanged s (s.memWrite a v).advance ∧ (s.memWrite a v).advance.halted = s.halted := by
  have hmem : MemoryAfter s (s.memWrite a v).advance a v := fun b => by
    rw [State.memRead_advance, State.memRead_memWrite]
  have hpc : PcSequential s (s.memWrite a v).advance := by
    rw [PcSequential, State.advance_pc, State.memWrite_pc, seqPc_toNat]
  have hregs : RegistersUnchanged s (s.memWrite a v).advance := fun r => by
    rw [State.readReg_advance, State.readReg_memWrite]
  exact ⟨hmem, hpc, hregs, s.memWrite_halted a v⟩

end Sys2Proof.Machine

/-! ## The statements about the load and the store -/

namespace Sys2Proof.Proofs

open Sys2Proof.Machine

/-- Settles O15: the value written back is the word at the effective address in the state before the write. -/
theorem lwLoadsWord : Obligations.LwLoadsWord :=
  ⟨fun _ hw => decode_of_kindOf_lw (kindOf_of_opcode_pattern (fun _ => rfl) hw),
    fun s rA rB imm7 => ⟨_, rfl, effectiveAddress_toNat_of_toInt s rA imm7, s.writeBack_effect rB rfl⟩⟩

/-- Settles O16: SW writes one word of memory, that at the effective address, and moves to the next instruction. -/
theorem swStoresWord : Obligations.SwStoresWord :=
  ⟨fun _ hw => decode_of_kindOf_sw (kindOf_of_opcode_pattern (fun _ => rfl) hw),
    fun s rA _ imm7 => ⟨_, rfl, effectiveAddress_toNat_of_toInt s rA imm7, s.memWrite_advance_effect _ _⟩⟩

end Sys2Proof.Proofs

/-! ## The absence of faults: every instruction answers a next state -/

namespace Sys2Proof.Machine

/-- No instruction faults or is refused: each thing it can do is a next state (60_exceptions.md R110). -/
theorem exec_answers_next (i : Instr) (s : State) : ∃ t, exec i s = .next t := by
  obtain ⟨r, v, -, he⟩ | ⟨imm13, -, he⟩ | ⟨rA, rB, imm7, -, he⟩ | ⟨p, -, he⟩ | ⟨-, he⟩ := exec_cases i s
  all_goals exact ⟨_, he⟩

end Sys2Proof.Machine

/-! ## The statement about exceptions -/

namespace Sys2Proof.Proofs

open Sys2Proof.Machine

/-- Settles O24: a running core's step is the `exec` of the instruction it fetches. -/
theorem everyStepAnswersNext : Obligations.EveryStepAnswersNext := by
  refine ⟨fun s hs => ?_, exec_answers_next⟩
  rw [step_of_running hs]
  exact exec_answers_next (decode (s.memRead s.pc)) s

end Sys2Proof.Proofs

/-! ## Encoding rules: fields of laid-out words, and words rebuilt from their fields -/

namespace Sys2Proof.Machine

@[simp] theorem rAField_encodeRRR (rA rB rC : RegIdx) (func : Func) : rAField (encodeRRR rA rB rC func) = rA :=
  (BitVec.extractLsb'_append_eq_of_le (by decide)).trans <|
  (BitVec.extractLsb'_append_eq_of_le (by decide)).trans <|
  (BitVec.extractLsb'_append_eq_of_le (by decide)).trans <|
  BitVec.extractLsb'_append_eq_right

@[simp] theorem rBField_encodeRRR (rA rB rC : RegIdx) (func : Func) : rBField (encodeRRR rA rB rC func) = rB :=
  (BitVec.extractLsb'_append_eq_of_le (by decide)).trans <|
  (BitVec.extractLsb'_append_eq_of_le (by decide)).trans <|
  BitVec.extractLsb'_append_eq_right

@[simp] theorem rCField_encodeRRR (rA rB rC : RegIdx) (func : Func) : rCField (encodeRRR rA rB rC func) = rC :=
  (BitVec.extractLsb'_append_eq_of_le (by decide)).trans <|
  BitVec.extractLsb'_append_eq_right

@[simp] theorem rAField_encodeRRI (op : Opcode) (rA rB : RegIdx) (imm7 : Imm7) :
    rAField (encodeRRI op rA rB imm7) = rA :=
  (BitVec.extractLsb'_append_eq_of_le (by decide)).trans <|
  (BitVec.extractLsb'_append_eq_of_le (by decide)).trans <|
  BitVec.extractLsb'_append_eq_right

@[simp] theorem rBField_encodeRRI (op : Opcode) (rA rB : RegIdx) (imm7 : Imm7) :
    rBField (encodeRRI op rA rB imm7) = rB :=
  (BitVec.extractLsb'_append_eq_of_le (by decide)).trans <|
  BitVec.extractLsb'_append_eq_right

@[simp] theorem imm7Field_encodeRRI (op : Opcode) (rA rB : RegIdx) (imm7 : Imm7) :
    imm7Field (encodeRRI op rA rB imm7) = imm7 := BitVec.extractLsb'_append_eq_right

@[simp] theorem imm13Field_encodeJ (op : Opcode) (imm13 : Addr) : imm13Field (encodeJ op imm13) = imm13 :=
  BitVec.extractLsb'_append_eq_right

/-- Every word is its opcode, rA, rB, rC and func fields laid out in that order (30_encoding.md R59). -/
theorem append_rrr_fields (w : Word) : opField w ++ rAField w ++ rBField w ++ rCField w ++ funcField w = w := by
  simp only [opField, rAField, rBField, rCField, funcField, BitVec.extractLsb'_append_extractLsb'_eq_extractLsb',
    BitVec.extractLsb'_eq_self]

theorem encodeRRR_fields {w : Word} (hop : opField w = 0#3) :
    encodeRRR (rAField w) (rBField w) (rCField w) (funcField w) = w := by
  rw [encodeRRR, ← hop, append_rrr_fields]

theorem encodeRRI_fields (w : Word) : encodeRRI (opField w) (rAField w) (rBField w) (imm7Field w) = w := by
  simp only [encodeRRI, opField, rAField, rBField, imm7Field, BitVec.extractLsb'_append_extractLsb'_eq_extractLsb',
    BitVec.extractLsb'_eq_self]

theorem encodeJ_fields (w : Word) : encodeJ (opField w) (imm13Field w) = w := by
  simp only [encodeJ, opField, imm13Field, BitVec.extractLsb'_append_extractLsb'_eq_extractLsb',
    BitVec.extractLsb'_eq_self]

/-! ## Classification read backwards -/

/-- Whether an opcode and function selector are those of an operation: opcode 0 with its selectors for the
register-register operations and JR, one opcode with any selector for each other operation (30_encoding.md R62). -/
def kindHasCodes (kind : Kind) (op : Opcode) (func : Func) : Bool :=
  match kind with
  | .add => op == 0#3 && func == 0#4
  | .sub => op == 0#3 && func == 1#4
  | .or => op == 0#3 && func == 2#4
  | .and => op == 0#3 && func == 3#4
  | .slt => op == 0#3 && func == 4#4
  | .jr => op == 0#3 && decide (5 ≤ func.toNat)
  | .addi => op == 1#3
  | .j => op == 2#3
  | .jal => op == 3#3
  | .lw => op == 4#3
  | .sw => op == 5#3
  | .jeq => op == 6#3
  | .slti => op == 7#3

/-- The classification of an opcode and function selector is an operation that has them. -/
theorem kindOf_hasCodes : ∀ (op : Opcode) (func : Func), kindHasCodes (kindOf op func) op func = true := by decide

/-- A word's opcode and function selector are those of the operation it is classified as. -/
theorem hasCodes_of_kindOf {w : Word} {kind : Kind} (h : kindOf (opField w) (funcField w) = kind) :
    kindHasCodes kind (opField w) (funcField w) = true := by
  rw [← h, kindOf_hasCodes]

/-- A word classified as a register-register operation with selector `func` is laid out from its register fields. -/
theorem encodeRRR_of_codes {w : Word} {func : Func} (h : (opField w == 0#3 && funcField w == func) = true) :
    encodeRRR (rAField w) (rBField w) (rCField w) func = w := by
  obtain ⟨hop, hfunc⟩ : opField w = 0#3 ∧ funcField w = func := by simpa using h
  rw [← hfunc, encodeRRR_fields hop]

/-- A word with opcode `op` is laid out from its register fields and short immediate. -/
theorem encodeRRI_of_codes {w : Word} {op : Opcode} (h : (opField w == op) = true) :
    encodeRRI op (rAField w) (rBField w) (imm7Field w) = w := by
  rw [← eq_of_beq h, encodeRRI_fields]

/-- A word with opcode `op` is laid out from its long immediate. -/
theorem encodeJ_of_codes {w : Word} {op : Opcode} (h : (opField w == op) = true) :
    encodeJ op (imm13Field w) = w := by
  rw [← eq_of_beq h, encodeJ_fields]

/-- Encoding the decoded instruction gives the word back: the fields the operation's format lacks are fixed by the
operation (30_encoding.md R59, R62, R64). -/
theorem encode_decode (w : Word) : encode (decode w) = w := by
  cases h : kindOf (opField w) (funcField w) with
  | add => rw [decode_of_kindOf_add h]; exact encodeRRR_of_codes (hasCodes_of_kindOf h)
  | sub => rw [decode_of_kindOf_sub h]; exact encodeRRR_of_codes (hasCodes_of_kindOf h)
  | or => rw [decode_of_kindOf_or h]; exact encodeRRR_of_codes (hasCodes_of_kindOf h)
  | and => rw [decode_of_kindOf_and h]; exact encodeRRR_of_codes (hasCodes_of_kindOf h)
  | slt => rw [decode_of_kindOf_slt h]; exact encodeRRR_of_codes (hasCodes_of_kindOf h)
  | jr =>
    obtain ⟨hop, -⟩ := Bool.and_eq_true_iff.mp (hasCodes_of_kindOf h)
    rw [decode_of_kindOf_jr h]
    exact encodeRRR_fields (eq_of_beq hop)
  | addi => rw [decode_of_kindOf_addi h]; exact encodeRRI_of_codes (hasCodes_of_kindOf h)
  | j => rw [decode_of_kindOf_j h]; exact encodeJ_of_codes (hasCodes_of_kindOf h)
  | jal => rw [decode_of_kindOf_jal h]; exact encodeJ_of_codes (hasCodes_of_kindOf h)
  | lw => rw [decode_of_kindOf_lw h]; exact encodeRRI_of_codes (hasCodes_of_kindOf h)
  | sw => rw [decode_of_kindOf_sw h]; exact encodeRRI_of_codes (hasCodes_of_kindOf h)
  | jeq => rw [decode_of_kindOf_jeq h]; exact encodeRRI_of_codes (hasCodes_of_kindOf h)
  | slti => rw [decode_of_kindOf_slti h]; exact encodeRRI_of_codes (hasCodes_of_kindOf h)

/-- The decoded instruction belongs to the operation the word is classified as. -/
theorem kind_decode (w : Word) : (decode w).kind = kindOf (opField w) (funcField w) := by
  rw [decode]
  cases kindOf (opField w) (funcField w) <;> rfl

/-- Only JR's function selector is restricted (30_encoding.md R62). -/
theorem wellFormed_of_kind_ne_jr {i : Instr} (h : i.kind ≠ .jr) : i.wellFormed = true := by
  cases i with
  | jr => exact absurd rfl h
  | _ => rfl

theorem decode_wellFormed (w : Word) : (decode w).wellFormed = true := by
  by_cases h : kindOf (opField w) (funcField w) = .jr
  · obtain ⟨-, hfunc⟩ := Bool.and_eq_true_iff.mp (hasCodes_of_kindOf h)
    rw [decode_of_kindOf_jr h]
    exact hfunc
  · exact wellFormed_of_kind_ne_jr (by rwa [kind_decode])

/-- Opcode 0 with a function selector of 5 or more is JR (30_encoding.md R62, R64). -/
theorem kindOf_jr_of_codes {w : Word} (hop : opField w = 0#3) (hfunc : 5 ≤ (funcField w).toNat) :
    kindOf (opField w) (funcField w) = .jr := by
  have all : ∀ func : Func, 5 ≤ func.toNat → kindOf 0#3 func = .jr := by decide
  rw [hop, all _ hfunc]

/-- JR only sets pc, and looks at none of its other fields (30_encoding.md R65, 43_control_transfer.md R92). -/
theorem exec_jr (rA rB rC : RegIdx) (func : Func) (s : State) :
    exec (.jr rA rB rC func) s = .next (s.setPc (registerTarget s rA)) := rfl

/-! ## The rows of the opcode map -/

/-- The bits that any row of the opcode map looks at: opcode and function selector (30_encoding.md R63). -/
theorem opcodeRows_mask : ∀ row ∈ opcodeRows, 0xE00F#16 &&& row.mask = row.mask := by decide

/-- Whether a word matches a row depends only on the word's opcode and function selector. -/
theorem matchesWord_and_mask {row : OpRow} (hrow : row ∈ opcodeRows) (w : Word) :
    row.matchesWord (w &&& 0xE00F#16) = row.matchesWord w := by
  rw [OpRow.matchesWord, OpRow.matchesWord, BitVec.and_assoc, opcodeRows_mask row hrow]

/-- What is left of a word under those bits: its opcode and function selector, every other field 0. -/
theorem and_mask_eq_append (w : Word) : w &&& 0xE00F#16 = opField w ++ 0#3 ++ 0#3 ++ 0#3 ++ funcField w := by
  have hand : (opField w ++ rAField w ++ rBField w ++ rCField w ++ funcField w) &&&
      (BitVec.allOnes 3 ++ 0#3 ++ 0#3 ++ 0#3 ++ BitVec.allOnes 4) =
      opField w ++ 0#3 ++ 0#3 ++ 0#3 ++ funcField w := by
    simp only [BitVec.and_append, BitVec.and_allOnes, BitVec.and_zero]
  have hmask : BitVec.allOnes 3 ++ 0#3 ++ 0#3 ++ 0#3 ++ BitVec.allOnes 4 = 0xE00F#16 := by decide
  rwa [append_rrr_fields, hmask] at hand

/-- Of each of the 128 pairs of an opcode and a function selector exactly one row is matched, and its operation is the
pair's. -/
theorem opcodeRows_partition : ∀ (op : Opcode) (func : Func),
    (opcodeRows.filter (fun row => row.matchesWord (op ++ 0#3 ++ 0#3 ++ 0#3 ++ func))).length = 1 ∧
      ∀ row ∈ opcodeRows, row.matchesWord (op ++ 0#3 ++ 0#3 ++ 0#3 ++ func) = true →
        kindOf op func = row.kind := by
  decide

end Sys2Proof.Machine

/-! ## The statements about the encoding -/

namespace Sys2Proof.Proofs

open Sys2Proof.Machine Sys2Proof.Laws

/-- Settles O17: the word is classified as its instruction's operation, and each field is where the layout put it. -/
theorem decodeOfEncodeIsInstruction : Obligations.DecodeOfEncodeIsInstruction := by
  intro i hi
  cases i with
  | add rA rB rC =>
    exact (decode_of_kindOf_add (EncodedKind.add rA rB rC hi)).trans (by simp [encode])
  | sub rA rB rC =>
    exact (decode_of_kindOf_sub (EncodedKind.sub rA rB rC hi)).trans (by simp [encode])
  | or rA rB rC =>
    exact (decode_of_kindOf_or (EncodedKind.or rA rB rC hi)).trans (by simp [encode])
  | and rA rB rC =>
    exact (decode_of_kindOf_and (EncodedKind.and rA rB rC hi)).trans (by simp [encode])
  | slt rA rB rC =>
    exact (decode_of_kindOf_slt (EncodedKind.slt rA rB rC hi)).trans (by simp [encode])
  | jr rA rB rC func =>
    exact (decode_of_kindOf_jr (EncodedKind.jr rA rB rC func hi)).trans (by simp [encode, funcField_encodeRRR])
  | addi rA rB imm7 =>
    exact (decode_of_kindOf_addi (EncodedKind.addi rA rB imm7 hi)).trans (by simp [encode])
  | j imm13 => exact (decode_of_kindOf_j (EncodedKind.j imm13 hi)).trans (by simp [encode])
  | jal imm13 =>
    exact (decode_of_kindOf_jal (EncodedKind.jal imm13 hi)).trans (by simp [encode])
  | lw rA rB imm7 =>
    exact (decode_of_kindOf_lw (EncodedKind.lw rA rB imm7 hi)).trans (by simp [encode])
  | sw rA rB imm7 =>
    exact (decode_of_kindOf_sw (EncodedKind.sw rA rB imm7 hi)).trans (by simp [encode])
  | jeq rA rB imm7 =>
    exact (decode_of_kindOf_jeq (EncodedKind.jeq rA rB imm7 hi)).trans (by simp [encode])
  | slti rA rB imm7 =>
    exact (decode_of_kindOf_slti (EncodedKind.slti rA rB imm7 hi)).trans (by simp [encode])

/-- Settles O18: a word is rebuilt from the fields its operation uses, and JR keeps the rest. -/
theorem encodeOfDecodeIsWord : Obligations.EncodeOfDecodeIsWord :=
  fun w => ⟨decode_wellFormed w, encode_decode w⟩

/-- Settles O19: a row sees no more of a word than the opcode and function selector, and of their 128 pairs each
matches one row. -/
theorem everyWordMatchesExactlyOneRow : Obligations.EveryWordMatchesExactlyOneRow := by
  intro w
  have hmatch : ∀ row ∈ opcodeRows,
      row.matchesWord w = row.matchesWord (opField w ++ 0#3 ++ 0#3 ++ 0#3 ++ funcField w) :=
    fun row hrow => by rw [← and_mask_eq_append, matchesWord_and_mask hrow]
  obtain ⟨hone, hkind⟩ := opcodeRows_partition (opField w) (funcField w)
  refine ⟨?_, fun row hrow hw => ?_⟩
  · rwa [List.filter_congr hmatch]
  · rw [kind_decode]
    exact hkind row hrow ((hmatch row hrow).symm.trans hw)

/-- Settles O20, by running the decoder. -/
theorem listedWordsDecode : Obligations.ListedWordsDecode := by
  unfold Obligations.ListedWordsDecode
  decide

/-- Settles O21: JR's effect looks at rA alone, and the encoder brings two different words back from their
instructions. -/
theorem onlyJrIgnoresBits : Obligations.OnlyJrIgnoresBits := by
  refine ⟨fun w w' s hop hfunc hop' hfunc' hrA => ?_, fun w w' _ hne heq => ?_⟩
  · rw [decode_of_kindOf_jr (kindOf_jr_of_codes hop hfunc), decode_of_kindOf_jr (kindOf_jr_of_codes hop' hfunc'),
      exec_jr, exec_jr, rAField, hrA, ← rAField]
  · exact hne (by rw [← encode_decode w', heq, encode_decode w])

end Sys2Proof.Proofs

/-! ## Invariant rules: the canonical memory under a step, and what canonical memories determine -/

namespace Sys2Proof.Machine

theorem State.inv_iff (s : State) : s.inv = true ↔ s.x[0] = 0#16 ∧ s.mem.wf = true := by
  simp [State.inv]

/-- A step answers the same state, or what some instruction answers. -/
theorem step_cases {s t : State} (h : step s = .next t) : t = s ∨ ∃ i, exec i s = .next t := by
  cases hs : s.halted with
  | true => exact .inl (Host.Outcome.next.inj (h.symm.trans (step_of_halted hs)))
  | false => exact .inr ⟨_, (step_of_running hs).symm.trans h⟩

/-- Every instruction keeps the memory's canonical form: a store writes one word, all others leave the memory. -/
theorem exec_keeps_mem_wf {i : Instr} {s t : State} (hs : s.mem.wf = true) (h : exec i s = .next t) :
    t.mem.wf = true := by
  obtain ⟨r, v, -, he⟩ | ⟨imm13, -, he⟩ | ⟨rA, rB, imm7, -, he⟩ | ⟨p, -, he⟩ | ⟨-, he⟩ := exec_cases i s
  all_goals obtain rfl := Host.Outcome.next.inj (he.symm.trans h)
  · rwa [State.writeBack_mem]
  · rwa [State.setPc_mem, State.writeReg_mem]
  · exact Memory.write_wf s.mem _ _ hs
  · exact hs
  · exact hs

/-- A canonical memory lists no key at or beyond 8192. -/
theorem Memory.key_lt_of_wf {m : Memory} (h : m.wf = true) : ∀ c ∈ m, c.1 < 8192 := by
  induction m with
  | nil => simp
  | cons c rest ih =>
    obtain ⟨k, v⟩ := c
    obtain ⟨hk, -, -, hrest⟩ := (Memory.wf_cons k v rest).mp h
    exact List.forall_mem_cons.mpr ⟨hk, ih hrest⟩

/-- A key that is not listed reads as 0. -/
theorem Memory.lookup_of_not_listed {m : Memory} {k : Nat} (h : ∀ c ∈ m, c.1 ≠ k) : m.lookup k = 0#16 := by
  induction m with
  | nil => rfl
  | cons c rest ih =>
    obtain ⟨hc, hrest⟩ := List.forall_mem_cons.mp h
    rw [Memory.lookup, if_neg hc, ih hrest]

theorem Memory.lookup_cons_self (k : Nat) (v : Word) (rest : Memory) : Memory.lookup ((k, v) :: rest) k = v :=
  if_pos rfl

theorem Memory.lookup_cons_of_ne {j k : Nat} (v : Word) (rest : Memory) (h : j ≠ k) :
    Memory.lookup ((j, v) :: rest) k = rest.lookup k := if_neg h

/-- A canonical memory reads as 0 below its first key. -/
theorem Memory.lookup_below {j k : Nat} {v : Word} {rest : Memory} (h : Memory.wf ((k, v) :: rest) = true)
    (hj : j < k) : Memory.lookup ((k, v) :: rest) j = 0#16 := by
  obtain ⟨-, -, hlt, -⟩ := (Memory.wf_cons k v rest).mp h
  exact Memory.lookup_of_not_listed
    (List.forall_mem_cons.mpr ⟨Nat.ne_of_gt hj, fun c hc => Nat.ne_of_gt (Nat.lt_trans hj (hlt c hc))⟩)

/-- Of two canonical memories that read alike at every key neither has its first key before the other's. -/
theorem Memory.first_key_le {k k' : Nat} {v v' : Word} {rest rest' : Memory}
    (h : Memory.wf ((k, v) :: rest) = true) (h' : Memory.wf ((k', v') :: rest') = true)
    (heq : ∀ j, Memory.lookup ((k, v) :: rest) j = Memory.lookup ((k', v') :: rest') j) : k' ≤ k := by
  obtain ⟨-, hv, -, -⟩ := (Memory.wf_cons k v rest).mp h
  refine Nat.le_of_not_lt fun hlt => hv ?_
  rw [← Memory.lookup_cons_self k v rest, heq, Memory.lookup_below h' hlt]

/-- Canonical memories with the same listed word at every key are the same data. -/
theorem Memory.eq_of_lookup_eq {m n : Memory} (hm : m.wf = true) (hn : n.wf = true)
    (h : ∀ k, m.lookup k = n.lookup k) : m = n := by
  induction m generalizing n with
  | nil =>
    cases n with
    | nil => rfl
    | cons c rest =>
      obtain ⟨k, v⟩ := c
      obtain ⟨-, hv, -, -⟩ := (Memory.wf_cons k v rest).mp hn
      exact absurd ((Memory.lookup_cons_self k v rest).symm.trans (h k).symm) hv
  | cons c rest ih =>
    obtain ⟨k, v⟩ := c
    obtain ⟨-, hv, hlt, hrest⟩ := (Memory.wf_cons k v rest).mp hm
    cases n with
    | nil => exact absurd ((Memory.lookup_cons_self k v rest).symm.trans (h k)) hv
    | cons c' rest' =>
      obtain ⟨k', v'⟩ := c'
      obtain ⟨-, -, hlt', hrest'⟩ := (Memory.wf_cons k' v' rest').mp hn
      obtain rfl : k = k' :=
        Nat.le_antisymm (Memory.first_key_le hn hm fun j => (h j).symm) (Memory.first_key_le hm hn h)
      obtain rfl : v = v' := by simpa [Memory.lookup_cons_self] using h k
      have hrests : ∀ j, Memory.lookup rest j = Memory.lookup rest' j := fun j => by
        by_cases hj : k = j
        · subst hj
          rw [Memory.lookup_of_not_listed fun c hc => Nat.ne_of_gt (hlt c hc),
            Memory.lookup_of_not_listed fun c hc => Nat.ne_of_gt (hlt' c hc)]
        · rw [← Memory.lookup_cons_of_ne v rest hj, h, Memory.lookup_cons_of_ne v rest' hj]
      rw [ih hrest hrest' hrests]

/-- What canonical memories read as at the 8192 addresses is all they list. -/
theorem Memory.lookup_eq_of_read_eq {m n : Memory} (hm : m.wf = true) (hn : n.wf = true)
    (h : ∀ a : Addr, m.read a = n.read a) (k : Nat) : m.lookup k = n.lookup k := by
  by_cases hk : k < 8192
  · simpa [Memory.read, Nat.mod_eq_of_lt hk] using h (BitVec.ofNat 13 k)
  · have beyond : ∀ {m : Memory}, m.wf = true → m.lookup k = 0#16 := fun hm =>
      Memory.lookup_of_not_listed fun c hc => by have := Memory.key_lt_of_wf hm c hc; omega
    rw [beyond hm, beyond hn]

/-! ## Runs from a halted state -/

/-- Any number of steps from a halted state answers that state (assumption log 2). -/
theorem run_of_halted {s : State} (hs : s.halted = true) (n : Nat) : Sys2Proof.core.run n s = .next s := by
  induction n with
  | zero => rfl
  | succ n ih => exact (run_succ_eq_next_iff n s s).mpr ⟨s, step_of_halted hs, ih⟩

theorem finishesIn_zero_iff (s t : State) : FinishesIn 0 s t ↔ s = t ∧ t.halted = true :=
  and_congr_left fun _ => ⟨Host.Outcome.next.inj, congrArg _⟩

theorem finishesIn_succ_iff (n : Nat) (s t : State) :
    FinishesIn (n + 1) s t ↔ ∃ u, step s = .next u ∧ FinishesIn n u t := by
  rw [FinishesIn, run_succ_eq_next_iff]
  exact ⟨fun ⟨⟨u, hu, hrun⟩, ht⟩ => ⟨u, hu, hrun, ht⟩, fun ⟨u, hu, hrun, ht⟩ => ⟨⟨u, hu, hrun⟩, ht⟩⟩

/-- A run from a halted state has ended there, whatever the number of steps. -/
theorem eq_of_finishesIn_of_halted {n : Nat} {s t : State} (hs : s.halted = true) (h : FinishesIn n s t) : s = t :=
  Host.Outcome.next.inj ((run_of_halted hs n).symm.trans h.1)

end Sys2Proof.Machine

/-! ## The statements about the invariant and about the end of a run -/

namespace Sys2Proof.Proofs

open Sys2Proof.Machine

/-- Settles O29: neither R0's stored value nor the memory's canonical form is lost by what an instruction can do. -/
theorem stepKeepsInvariant : Obligations.StepKeepsInvariant := by
  intro s t hs hstep
  obtain ⟨hx, hmem⟩ := s.inv_iff.mp hs
  refine t.inv_iff.mpr ⟨(step_keeps_x_zero hstep).trans hx, ?_⟩
  obtain rfl | ⟨i, he⟩ := step_cases hstep
  · exact hmem
  · exact exec_keeps_mem_wf hmem he

/-- Settles O30: reset stores 0 in R0 and lists no memory cell. -/
theorem invariantHoldsAtReset : Obligations.InvariantHoldsAtReset :=
  (State.inv_iff _).mpr ⟨rfl, State.reset_mem_wf⟩

/-- Settles O26, by induction on the number of steps. -/
theorem haltedStateStaysAsItIs : Obligations.HaltedStateStaysAsItIs :=
  fun _ n hs => run_of_halted hs n

/-- Settles O27, by induction on the steps of the one run: while both have steps left they take the same step, and from
where one has ended the other does not move. -/
theorem runResultIsUnique : Obligations.RunResultIsUnique := by
  intro s t u m n ht hu
  induction m generalizing s n with
  | zero =>
    obtain ⟨rfl, hs⟩ := (finishesIn_zero_iff s t).mp ht
    exact eq_of_finishesIn_of_halted hs hu
  | succ m ih =>
    cases n with
    | zero =>
      obtain ⟨rfl, hs⟩ := (finishesIn_zero_iff s u).mp hu
      exact (eq_of_finishesIn_of_halted hs ht).symm
    | succ n =>
      obtain ⟨v, hv, ht'⟩ := (finishesIn_succ_iff m s t).mp ht
      obtain ⟨w, hw, hu'⟩ := (finishesIn_succ_iff n s u).mp hu
      obtain rfl := Host.Outcome.next.inj (hv.symm.trans hw)
      exact ih v n ht' hu'

/-- Settles O32: canonical memories that read alike list the same word at every key, and so the same cells. -/
theorem canonicalMemoriesReadingAlikeAreEqual : Obligations.CanonicalMemoriesReadingAlikeAreEqual :=
  fun _ _ hm hn h => Memory.eq_of_lookup_eq hm hn (Memory.lookup_eq_of_read_eq hm hn h)

end Sys2Proof.Proofs

/-! ## The host's operations on the state -/

namespace Sys2Proof.Machine

/-- A register file of eight zeros reads as 0 in every register. -/
theorem State.readReg_of_zero_registers {s : State} (h : s.x = Vector.replicate Config.numRegs 0#16) (r : RegIdx) :
    s.readReg r = 0#16 := by
  simp [State.readReg, h]

theorem tableWord_of_word (w : Word) : tableWord 16 w.toNat = w := by
  simp [tableWord, Nat.mod_eq_of_lt w.isLt]

/-- Placing a word is storing it at pc and clearing the halted status (assumption log 4). -/
theorem State.memRead_withFetchWord (s : State) (n w : Nat) (a : Addr) :
    (s.withFetchWord n w).memRead a = if a = s.pc then tableWord n w else s.memRead a :=
  s.memRead_memWrite s.pc (tableWord n w) a

/-- What the host reads of a halted core lists its registers in order (70_reset_and_hazards.md R137). -/
theorem hostRead_registers (s : State) (r : RegIdx) :
    ((List.range Config.numRegs).map fun i => s.readReg (BitVec.ofNat 3 i))[r.toNat]? = some (s.readReg r) := by
  have hr : r.toNat < Config.numRegs := r.isLt
  rw [List.getElem?_map, List.getElem?_range hr, Option.map_some, BitVec.ofNat_toNat, BitVec.setWidth_eq]

end Sys2Proof.Machine

/-! ## The statements about reset, the placed word and the host's reading -/

namespace Sys2Proof.Proofs

open Sys2Proof.Machine

/-- Settles O2: reset has the registers and the memory of a boot of no words. -/
theorem resetIsBootOfEmptyImage : Obligations.ResetIsBootOfEmptyImage :=
  ⟨rfl, rfl, rfl, State.readReg_of_zero_registers rfl, fun _ => rfl⟩

/-- Settles O3: the reset input sets every field but the memory. -/
theorem resetInputFromAnyState : Obligations.ResetInputFromAnyState :=
  fun _ => ⟨rfl, State.readReg_of_zero_registers rfl, rfl, fun _ => rfl⟩

/-- Settles O23: the placed word is what the running core reads at pc. -/
theorem placedWordRunsNext : Obligations.PlacedWordRunsNext := by
  intro s w
  have hmem : MemoryAfter s (s.withFetchWord 16 w.toNat) s.pc w := fun b => by
    rw [State.memRead_withFetchWord, tableWord_of_word]
  refine ⟨?_, hmem, State.readReg_congr (s.withFetchWord_x 16 w.toNat), s.withFetchWord_pc 16 w.toNat⟩
  rw [step_of_running (s.withFetchWord_halted 16 w.toNat), State.withFetchWord_pc, hmem, if_pos rfl]

/-- Settles O51: the host's reading is guarded by the halted status alone. -/
theorem hostReadsOnlyHaltedCore : Obligations.HostReadsOnlyHaltedCore := by
  intro s
  refine ⟨fun hs => if_neg (by simp [hs]), fun hs => ⟨_, if_pos hs, rfl, ?_, hostRead_registers s, fun _ => rfl⟩⟩
  rw [List.length_map, List.length_range]

end Sys2Proof.Proofs

/-! ## Rules over all instructions: what is written, and what is read -/

namespace Sys2Proof.Machine

/-- Every instruction leaves every register but its destination as it was, and R0 always (40_execution_cycle.md
R74). -/
theorem exec_keeps_other_registers {i : Instr} {s t : State} (h : exec i s = .next t) {r : RegIdx}
    (hr : writtenRegister i ≠ some r ∨ r = 0#3) : t.readReg r = s.readReg r := by
  have hdest : ∀ {dest : RegIdx}, writtenRegister i = some dest → ¬(r = dest ∧ r ≠ 0#3) := by
    rintro dest hi ⟨rfl, hr0⟩
    exact hr.elim (· hi) hr0
  obtain ⟨dest, v, hi, he⟩ | ⟨imm13, rfl, he⟩ | ⟨rA, rB, imm7, -, he⟩ | ⟨p, -, he⟩ | ⟨-, he⟩ := exec_cases i s
  all_goals obtain rfl := Host.Outcome.next.inj (he.symm.trans h)
  · rw [State.readReg_writeBack, if_neg (hdest hi)]
  · rw [State.readReg_setPc, State.readReg_writeReg, if_neg (hdest rfl)]
  · rfl
  · rfl
  · rfl

/-- Every instruction but a store leaves the memory as it was (40_execution_cycle.md R70). -/
theorem exec_keeps_memory {i : Instr} {s t : State} (hi : ∀ rA rB imm7, i ≠ .sw rA rB imm7)
    (h : exec i s = .next t) : MemoryUnchanged s t := by
  obtain ⟨dest, v, -, he⟩ | ⟨imm13, -, he⟩ | ⟨rA, rB, imm7, hsw, he⟩ | ⟨p, -, he⟩ | ⟨-, he⟩ := exec_cases i s
  all_goals obtain rfl := Host.Outcome.next.inj (he.symm.trans h)
  · exact s.memRead_writeBack dest v
  · exact s.memRead_writeReg _ _
  · exact absurd hsw (hi rA rB imm7)
  · exact fun _ => rfl
  · exact fun _ => rfl

/-- What an instruction other than a store does to the memory and the registers, in the words of the statements. -/
theorem exec_of_not_store {i : Instr} (s : State) (hi : ∀ rA rB imm7, i ≠ .sw rA rB imm7) :
    ∃ t, exec i s = .next t ∧ MemoryUnchanged s t ∧
      ∀ r, writtenRegister i ≠ some r → t.readReg r = s.readReg r := by
  obtain ⟨t, he⟩ := exec_answers_next i s
  exact ⟨t, he, exec_keeps_memory hi he, fun r hr => exec_keeps_other_registers he (.inl hr)⟩

/-- The two states differ at most in what their registers read as. -/
structure AgreeOutsideRegisters (s s' : State) : Prop where
  pc : s'.pc = s.pc
  halted : s'.halted = s.halted
  mem : MemoryUnchanged s s'

/-- The instruction takes the two states to states that again agree outside the registers, and in the register written
(10_state.md R23). -/
def ActsAlike (i : Instr) (s s' : State) : Prop :=
  ∃ t t', exec i s = .next t ∧ exec i s' = .next t' ∧ AgreeOutsideRegisters t t' ∧
    ∀ r, writtenRegister i = some r → t'.readReg r = t.readReg r

section

variable {i : Instr} {s s' : State}

/-- Both states get the same value in the destination. -/
theorem AgreeOutsideRegisters.actsAlike_of_writeBack (h : AgreeOutsideRegisters s s') {dest : RegIdx} {v : Word}
    (hi : writtenRegister i = some dest) (he : exec i s = .next (s.writeBack dest v))
    (he' : exec i s' = .next (s'.writeBack dest v)) : ActsAlike i s s' := by
  refine ⟨_, _, he, he', ⟨?_, ?_, fun a => ?_⟩, fun r hr => ?_⟩
  · rw [State.writeBack_pc, State.writeBack_pc, h.pc]
  · rw [State.writeBack_halted, State.writeBack_halted, h.halted]
  · rw [State.memRead_writeBack, State.memRead_writeBack, h.mem a]
  · obtain rfl : dest = r := Option.some.inj (hi.symm.trans hr)
    by_cases h0 : dest = 0#3
    · subst h0
      rfl
    · rw [State.readReg_writeBack, State.readReg_writeBack, if_pos ⟨rfl, h0⟩, if_pos ⟨rfl, h0⟩]

/-- Both states go to the same address. -/
theorem AgreeOutsideRegisters.actsAlike_of_setPc (h : AgreeOutsideRegisters s s') {p : Addr}
    (hi : writtenRegister i = none) (he : exec i s = .next (s.setPc p))
    (he' : exec i s' = .next (s'.setPc p)) : ActsAlike i s s' :=
  ⟨_, _, he, he', ⟨rfl, h.halted, h.mem⟩, fun _ hr => absurd (hi.symm.trans hr) nofun⟩

/-- A J does the same in both states, and halts in both or in none: they are at the same address. -/
theorem AgreeOutsideRegisters.actsAlike_j (h : AgreeOutsideRegisters s s') (imm13 : Addr) :
    ActsAlike (.j imm13) s s' := by
  by_cases hself : imm13 = s.pc
  · have he' : exec (.j s.pc) s' = .next s'.halt := by rw [← h.pc, exec_j_self]
    exact hself ▸ ⟨_, _, exec_j_self s, he', ⟨h.pc, rfl, h.mem⟩, nofun⟩
  · exact h.actsAlike_of_setPc rfl (exec_j_of_ne hself) (exec_j_of_ne (h.pc ▸ hself))

/-- A JAL writes the same link in both states: they are at the same address. -/
theorem AgreeOutsideRegisters.actsAlike_jal (h : AgreeOutsideRegisters s s') (imm13 : Addr) :
    ActsAlike (.jal imm13) s s' := by
  refine ⟨_, _, rfl, rfl, ⟨rfl, ?_, fun a => ?_⟩, fun r hr => ?_⟩
  · rw [State.setPc_halted, State.setPc_halted, State.writeReg_halted, State.writeReg_halted, h.halted]
  · rw [State.memRead_setPc, State.memRead_setPc, State.memRead_writeReg, State.memRead_writeReg, h.mem a]
  · obtain rfl : Config.linkReg = r := Option.some.inj hr
    rw [State.readReg_setPc, State.readReg_setPc, State.readReg_writeReg, State.readReg_writeReg,
      if_pos ⟨rfl, by decide⟩, if_pos ⟨rfl, by decide⟩, h.pc]

/-- A SW stores the same word at the same address in both states, if they agree in its two registers. -/
theorem AgreeOutsideRegisters.actsAlike_sw (h : AgreeOutsideRegisters s s') {rA rB : RegIdx} (imm7 : Imm7)
    (hA : s'.readReg rA = s.readReg rA) (hB : s'.readReg rB = s.readReg rB) :
    ActsAlike (.sw rA rB imm7) s s' := by
  refine ⟨_, _, rfl, rfl, ⟨?_, h.halted, fun a => ?_⟩, nofun⟩
  · rw [State.advance_pc, State.advance_pc, State.memWrite_pc, State.memWrite_pc, h.pc]
  · rw [State.memRead_advance, State.memRead_advance, State.memRead_memWrite, State.memRead_memWrite, hB,
      effectiveAddress_congr hA, h.mem a]

/-- R23: the values an instruction works with are those of the registers it names, of pc and of the memory. -/
theorem AgreeOutsideRegisters.actsAlike (h : AgreeOutsideRegisters s s')
    (hread : ∀ r ∈ readRegisters i, s'.readReg r = s.readReg r) : ActsAlike i s s' := by
  cases i <;>
    simp only [readRegisters, List.forall_mem_cons, List.not_mem_nil, false_imp_iff, implies_true, and_true] at hread
  case add rA rB rC => exact h.actsAlike_of_writeBack rfl rfl (by simp only [exec, execAdd, hread])
  case sub rA rB rC => exact h.actsAlike_of_writeBack rfl rfl (by simp only [exec, execSub, hread])
  case or rA rB rC => exact h.actsAlike_of_writeBack rfl rfl (by simp only [exec, execOr, hread])
  case and rA rB rC => exact h.actsAlike_of_writeBack rfl rfl (by simp only [exec, execAnd, hread])
  case slt rA rB rC => exact h.actsAlike_of_writeBack rfl rfl (by simp only [exec, execSlt, hread])
  case addi rA rB imm7 => exact h.actsAlike_of_writeBack rfl rfl (by simp only [exec, execAddi, hread])
  case slti rA rB imm7 => exact h.actsAlike_of_writeBack rfl rfl (by simp only [exec, execSlti, hread])
  case lw rA rB imm7 =>
    exact h.actsAlike_of_writeBack rfl rfl (by simp only [exec, execLw, effectiveAddress_congr hread, h.mem _])
  case sw rA rB imm7 => exact h.actsAlike_sw imm7 hread.1 hread.2
  case jr rA rB rC func => exact h.actsAlike_of_setPc rfl rfl (by simp only [exec, execJr, registerTarget, hread])
  case jeq rA rB imm7 =>
    exact h.actsAlike_of_setPc rfl (exec_jeq rA rB imm7 s) (by simp only [exec_jeq, hread, h.pc])
  case j imm13 => exact h.actsAlike_j imm13
  case jal imm13 => exact h.actsAlike_jal imm13

end

/-! ## Two instructions one after the other -/

/-- A running core whose fetch decodes to `i` runs `i`. -/
theorem step_of_decode {s : State} {i : Instr} (hs : s.halted = false) (hi : decode (s.memRead s.pc) = i) :
    step s = exec i s := by
  rw [step_of_running hs, hi]

/-- A return through the link register goes behind the call (43_control_transfer.md R92, R94). -/
theorem registerTarget_link_toNat (s : State) (imm13 : Addr) :
    (registerTarget ((s.writeReg Config.linkReg (linkValue s.pc)).setPc imm13) 7#3).toNat =
      (s.pc.toNat + 1) % 8192 := by
  rw [registerTarget_toNat, s.link_registersAfter imm13 7#3, if_pos ⟨rfl, by decide⟩, Nat.mod_mod]

end Sys2Proof.Machine

/-! ## The statements over all instructions, and about two instructions in a row -/

namespace Sys2Proof.Proofs

open Sys2Proof.Machine

/-- Settles O34, from `exec_keeps_other_registers`. -/
theorem onlyWriteDestinationChanges : Obligations.OnlyWriteDestinationChanges := by
  intro i s
  obtain ⟨t, he⟩ := exec_answers_next i s
  exact ⟨t, he, fun r => exec_keeps_other_registers he⟩

/-- Settles O36: the fetched instruction is a store or it is none. -/
theorem stepWritesOneRegisterOrOneWord : Obligations.StepWritesOneRegisterOrOneWord := by
  intro s hs
  rw [step_of_running hs]
  generalize decode (s.memRead s.pc) = i
  cases i with
  | sw rA rB imm7 =>
    obtain ⟨hmem, -, hregs, -⟩ := s.memWrite_advance_effect (effectiveAddress s rA imm7) (s.readReg rB)
    exact ⟨_, rfl, hregs, hmem⟩
  | _ => exact exec_of_not_store s nofun

/-- Settles O37: the agreement is `AgreeOutsideRegisters.actsAlike`, the other registers are
`exec_keeps_other_registers` in each state. -/
theorem onlyNamedRegistersAreRead : Obligations.OnlyNamedRegistersAreRead := by
  intro i s s' hpc hhalted hmem hread
  obtain ⟨t, t', he, he', hagree, hdest⟩ := AgreeOutsideRegisters.actsAlike ⟨hpc, hhalted, hmem⟩ hread
  exact ⟨t, t', he, he', hagree.pc, hagree.halted, hagree.mem, hdest,
    fun r hr => ⟨exec_keeps_other_registers he (.inl hr), exec_keeps_other_registers he' (.inl hr)⟩⟩

/-- Settles O38: the store changes no register, so the load's address is that of the state before the store. -/
theorem loadReturnsMostRecentStore : Obligations.LoadReturnsMostRecentStore := by
  intro s rA rB rD rC imm7 imm7' hC
  have haddr : effectiveAddress (s.memWrite (effectiveAddress s rA imm7) (s.readReg rB)).advance rD imm7' =
      effectiveAddress s rD imm7' := effectiveAddress_congr rfl imm7'
  exact ⟨_, _, rfl, rfl, by
    rw [State.readReg_writeBack, if_pos ⟨rfl, hC⟩, haddr, State.memRead_advance, State.memRead_memWrite]⟩

/-- Settles O39: after the store the word at its address is the stored one, whichever way pc comes to that address. -/
theorem storeIsSeenByNextFetch : Obligations.StoreIsSeenByNextFetch := by
  intro s rA rB imm7 hs hsw
  obtain ⟨hmem, hpc, -, hhalted⟩ := s.memWrite_advance_effect (effectiveAddress s rA imm7) (s.readReg rB)
  refine ⟨_, step_of_decode hs hsw, hmem, hpc, fun hnext => ?_, fun hself => ?_⟩
  · exact step_of_decode (hhalted.trans hs) (by rw [hmem, if_pos hnext])
  · exact step_of_decode (hhalted.trans hs) (by rw [State.memRead_setPc, hmem, State.setPc_pc, if_pos hself.symm])

/-- Settles O40: the JR reads the link that the JAL wrote. -/
theorem returnGoesBehindCall : Obligations.ReturnGoesBehindCall :=
  fun s imm13 _ _ _ => ⟨_, _, rfl, rfl, rfl, registerTarget_link_toNat s imm13, fun _ => rfl, s.memRead_writeReg _ _⟩

end Sys2Proof.Proofs

/-! ## Numeric rules: ranges, one fold against the modulus, and the two readings of a signed immediate -/

namespace Sys2Proof.Machine

theorem int_bounds {n : Nat} (v : BitVec n) : 0 ≤ int v ∧ int v < 2 ^ n :=
  ⟨Int.natCast_nonneg v.toNat, by unfold int; exact_mod_cast v.isLt⟩

/-- The signed reading of a 7-bit field lies in -64..63 (30_encoding.md R57). -/
theorem sext_bounds (v : Imm7) : -64 ≤ sext v ∧ sext v ≤ 63 := by
  have := v.isLt
  rw [sext_eq]
  split <;> omega

/-- Where a number is less than `m` away from the range [0, m), one fold is the modulus (00_scope.md R12). -/
theorem foldOnce_eq_emod {m n : Int} (hlow : -m ≤ n) (hhigh : n < 2 * m) : foldOnce m n = n % m := by
  unfold foldOnce
  split
  · rw [← Int.add_emod_right, Int.emod_eq_of_lt (by omega) (by omega)]
  · split
    · rw [← Int.sub_emod_right, Int.emod_eq_of_lt (by omega) (by omega)]
    · rw [Int.emod_eq_of_lt (by omega) (by omega)]

theorem wrap16_toNat_eq_foldOnce {n : Int} (hlow : -65536 ≤ n) (hhigh : n < 131072) :
    ((wrap16 n).toNat : Int) = foldOnce 65536 n := by
  rw [foldOnce_eq_emod hlow hhigh, wrap16_toNat, Int.toNat_of_nonneg (Int.emod_nonneg n (by decide))]

theorem wrap13_toNat_eq_foldOnce {n : Int} (hlow : -8192 ≤ n) (hhigh : n < 16384) :
    ((wrap13 n).toNat : Int) = foldOnce 8192 n := by
  rw [foldOnce_eq_emod hlow hhigh, wrap13_toNat, Int.toNat_of_nonneg (Int.emod_nonneg n (by decide))]

/-- The 16-bit pattern of a signed immediate is the library's sign extension (00_scope.md R11). -/
theorem sext16_eq_signExtend (v : Imm7) : sext16 v = v.signExtend 16 := by
  apply BitVec.eq_of_toNat_eq
  have := v.isLt
  rw [sext16_toNat, BitVec.toNat_signExtend, BitVec.msb_eq_decide, BitVec.toNat_setWidth_of_le (by decide)]
  by_cases h : 64 ≤ v.toNat <;> simp [h]

/-- Read as signed, the 16-bit pattern of an immediate has the immediate's value. -/
theorem signed16_sext16 (v : Imm7) : signed16 (sext16 v) = sext v := by
  have := v.isLt
  rw [signed16, int, sext16_toNat, sext_eq]
  split <;> split <;> omega

/-- Adding the 16-bit pattern of an immediate as an unsigned number gives the signed sum, both folded
(40_execution_cycle.md R81). -/
theorem wrap16_int_add_sext16 (p : Word) (v : Imm7) : wrap16 (int p + int (sext16 v)) = wrap16 (int p + sext v) := by
  apply BitVec.eq_of_toNat_eq
  rw [wrap16_toNat, wrap16_toNat, int, int, sext16_toNat, sext_eq]
  split <;> omega

/-- The low 13 bits of a 16-bit fold are the 13-bit fold, because 8192 divides 65536 (20_memory.md R39). -/
theorem low13_wrap16 (n : Int) : low13 (wrap16 n) = wrap13 n := by
  apply BitVec.eq_of_toNat_eq
  rw [low13_toNat, wrap16_toNat, wrap13_toNat]
  omega

/-- The effective address is the low 13 bits of the sum of the base and the immediate's 16-bit pattern. -/
theorem effectiveAddress_eq_low13 (s : State) (rA : RegIdx) (imm7 : Imm7) :
    effectiveAddress s rA imm7 = low13 (wrap16 (int (s.readReg rA) + int (sext16 imm7))) := by
  rw [wrap16_int_add_sext16, low13_wrap16, effectiveAddress]

end Sys2Proof.Machine

/-! ## The statements about the numeric rules -/

namespace Sys2Proof.Proofs

open Sys2Proof.Machine

/-- Settles O41: the 13-bit fold of the exact sum is the low part of its 16-bit fold. -/
theorem effectiveAddressForms : Obligations.EffectiveAddressForms := by
  refine fun s rA imm7 => ⟨?_, effectiveAddress_toNat_of_toInt s rA imm7⟩
  rw [effectiveAddress_eq_low13, wrap16_int_add, sext16_eq_signExtend, low13]

/-- Settles O42: each of the three lies less than 65536 away from the range of a word. -/
theorem registerFoldOnceIsModulus : Obligations.RegisterFoldOnceIsModulus := by
  intro p q imm7 n hn
  obtain ⟨hp0, hp⟩ := int_bounds p
  obtain ⟨hq0, hq⟩ := int_bounds q
  obtain ⟨hi0, hi⟩ := sext_bounds imm7
  have hrange : -65535 ≤ n ∧ n ≤ 131070 := by
    simp only [List.mem_cons, List.not_mem_nil, or_false] at hn
    obtain rfl | rfl | rfl := hn <;> omega
  exact ⟨hrange.1, hrange.2, wrap16_toNat_eq_foldOnce (by omega) (by omega)⟩

/-- Settles O43: the branch target and the next address lie less than 8192 away from the range of an address. -/
theorem pcFoldOnceIsModulus : Obligations.PcFoldOnceIsModulus := by
  intro pc imm7
  obtain ⟨hpc0, hpc⟩ := int_bounds pc
  obtain ⟨hi0, hi⟩ := sext_bounds imm7
  exact ⟨⟨by omega, by omega⟩, wrap13_toNat_eq_foldOnce (by omega) (by omega),
    wrap13_toNat_eq_foldOnce (by omega) (by omega)⟩

/-- Settles O44: up to 16383 the sum lies less than 8192 away from the range of an address; beyond, one fold takes off
8192 and leaves 8192 or more. -/
theorem addressFoldOnceDiffersOnlyAbove16383 : Obligations.AddressFoldOnceDiffersOnlyAbove16383 := by
  intro base imm7
  obtain ⟨hb0, -⟩ := int_bounds base
  obtain ⟨hi0, -⟩ := sext_bounds imm7
  refine ⟨fun hlow => wrap13_toNat_eq_foldOnce (by omega) (by omega), fun hhigh => ?_⟩
  rw [foldOnce, if_neg (by omega), if_pos (by omega)]
  omega

/-- Settles O45: the range is that of a 7-bit two's complement number, in which encoding loses nothing. -/
theorem signedImmediateRoundTrip : Obligations.SignedImmediateRoundTrip := by
  refine ⟨fun v => ?_, fun n hlow hhigh => ?_⟩
  · obtain ⟨hlow, hhigh⟩ := sext_bounds v
    exact ⟨hlow, hhigh, sext_eq_toInt v, signed16_sext16 v⟩
  · rw [sext_eq_toInt, BitVec.toInt_ofInt]
    exact Int.bmod_eq_of_le (by omega) (by omega)

/-- Settles O47: the ALU's results are the folds and bit operations of the instruction rules. -/
theorem aluResultTable : Obligations.AluResultTable := by
  refine fun p q => ⟨wrap16_int_add_toNat p q, wrap16_toNat _, fun _ _ => BitVec.getLsbD_or,
    fun _ _ => BitVec.getLsbD_and, setLessUnsigned_toNat p q, fun _ => equalPatterns_iff p q, fun imm7 => ?_⟩
  rw [alu, aluResult, wrap16_int_add_sext16, wrap16_int_add_sext_toNat]

end Sys2Proof.Proofs

/-! ## The blocks' ports against the operations of the instruction rules -/

namespace Sys2Proof.Machine

/-- The register file's write port with the enable 1 is the register write (10_state.md R24). -/
theorem writeReg_x (s : State) (dest : RegIdx) (v : Word) : (s.writeReg dest v).x = regFileWrite s.x true dest v := by
  by_cases h : dest = 0#3
  · subst h; rfl
  · simp [State.writeReg, regFileWrite, h]

/-- A write-back field by field. -/
theorem writeBack_eq_ports (s : State) (dest : RegIdx) (v : Word) :
    s.writeBack dest v =
      { pc := seqPc s.pc, x := regFileWrite s.x true dest v, mem := s.mem, halted := s.halted } := by
  rw [← writeReg_x]
  simp only [State.writeBack, State.advance, State.setPc, State.writeReg_pc, State.writeReg_mem, State.writeReg_halted]

/-- What a JAL does field by field. -/
theorem link_eq_ports (s : State) (target : Addr) :
    (s.writeReg Config.linkReg (linkValue s.pc)).setPc target =
      { pc := target, x := regFileWrite s.x true 7#3 (linkValue s.pc), mem := s.mem, halted := s.halted } := by
  rw [← writeReg_x]
  simp only [State.setPc, State.writeReg_mem, State.writeReg_halted]

/-- A JEQ chooses its next PC by the ALU's equality output and reads the immediate from the decoder's 16-bit pattern. -/
theorem exec_jeq_eq_ports (rA rB : RegIdx) (imm7 : Imm7) (s : State) :
    exec (.jeq rA rB imm7) s =
      .next (s.setPc (if equalPatterns (s.readReg rA) (s.readReg rB) then
        wrap13 (int s.pc + 1 + signed16 (sext16 imm7)) else wrap13 (int s.pc + 1))) := by
  simp only [exec_jeq, equalPatterns_iff, signed16_sext16]
  rfl

/-- What a J does field by field: it compares its target with pc for the halted status alone. -/
theorem exec_j_eq_ports (imm13 : Addr) (s : State) :
    exec (.j imm13) s = .next { pc := imm13, x := s.x, mem := s.mem, halted := imm13 == s.pc || s.halted } := by
  by_cases hself : imm13 = s.pc
  · rw [hself, exec_j_self, beq_self_eq_true]
    rfl
  · rw [exec_j_of_ne hself, beq_false_of_ne hself]
    rfl

/-- The datapath behind the decoder: register reads, ALU, control unit and writes, from the decoder's outputs `d`. -/
def datapathOn (d : DecoderOut) (s : State) : State :=
  let out := alu (aluOpOf d.kind) (regFileRead s.x d.rA) (aluOperand d (regFileRead s.x d.rB))
  let c := controlBlock d s.pc (regFileRead s.x d.rA) out.eq
  { pc := c.npc,
    x := regFileWrite s.x c.rfWEn c.rfWAddr
      (writeBackValue c.wbSel out.result (s.mem.read (low13 out.result)) s.pc),
    mem := memoryWrite s.mem c.dWe (low13 out.result) (regFileRead s.x d.rB),
    halted := c.haltNow || s.halted }

theorem datapath_eq_datapathOn (s : State) : datapath s = datapathOn (decoderBlock (s.mem.read s.pc)) s := rfl

/-- A running core takes the datapath's step if the fetched instruction does what the datapath does behind a decoder
whose `kind` output is that instruction's operation. -/
theorem step_eq_datapath {s : State} {kind : Kind} {i : Instr} (hs : s.halted = false)
    (hkind : kindOf (opField (s.mem.read s.pc)) (funcField (s.mem.read s.pc)) = kind)
    (hi : decode (s.mem.read s.pc) = i)
    (he : exec i s = .next (datapathOn { decoderBlock (s.mem.read s.pc) with kind := kind } s)) :
    step s = .next (datapath s) := by
  subst hkind
  rw [step_of_decode hs hi, he, datapath_eq_datapathOn]
  rfl

end Sys2Proof.Machine

/-! ## The statement about the hardware blocks -/

namespace Sys2Proof.Proofs

open Sys2Proof.Machine

/-- Settles O46, operation by operation: the ports carry the operands and the result of the instruction rule. -/
theorem datapathTakesTheSameStep : Obligations.DatapathTakesTheSameStep := by
  intro s hs
  cases h : kindOf (opField (s.mem.read s.pc)) (funcField (s.mem.read s.pc)) with
  | add =>
    exact step_eq_datapath hs h (decode_of_kindOf_add h) (congrArg Host.Outcome.next (writeBack_eq_ports s _ _))
  | sub =>
    exact step_eq_datapath hs h (decode_of_kindOf_sub h) (congrArg Host.Outcome.next (writeBack_eq_ports s _ _))
  | or =>
    exact step_eq_datapath hs h (decode_of_kindOf_or h) (congrArg Host.Outcome.next (writeBack_eq_ports s _ _))
  | and =>
    exact step_eq_datapath hs h (decode_of_kindOf_and h) (congrArg Host.Outcome.next (writeBack_eq_ports s _ _))
  | slt =>
    exact step_eq_datapath hs h (decode_of_kindOf_slt h) (congrArg Host.Outcome.next (writeBack_eq_ports s _ _))
  | slti =>
    exact step_eq_datapath hs h (decode_of_kindOf_slti h) (congrArg Host.Outcome.next (writeBack_eq_ports s _ _))
  | addi =>
    refine step_eq_datapath hs h (decode_of_kindOf_addi h) ?_
    rw [exec, execAddi, ← wrap16_int_add_sext16, writeBack_eq_ports]
    rfl
  | lw =>
    refine step_eq_datapath hs h (decode_of_kindOf_lw h) ?_
    rw [exec, execLw, effectiveAddress_eq_low13, writeBack_eq_ports]
    rfl
  | sw =>
    refine step_eq_datapath hs h (decode_of_kindOf_sw h) ?_
    rw [exec, execSw, effectiveAddress_eq_low13]
    rfl
  | jr => exact step_eq_datapath hs h (decode_of_kindOf_jr h) rfl
  | jal =>
    exact step_eq_datapath hs h (decode_of_kindOf_jal h) (congrArg Host.Outcome.next (link_eq_ports s _))
  | jeq => exact step_eq_datapath hs h (decode_of_kindOf_jeq h) (exec_jeq_eq_ports _ _ _ s)
  | j => exact step_eq_datapath hs h (decode_of_kindOf_j h) (exec_j_eq_ports _ s)

end Sys2Proof.Proofs

/-! ## The Loader's rules: reading lines in sequence, and the parts of a line of the pattern's form -/

namespace Sys2Proof.Machine

theorem Loader.load_of_ne_nil {lines : List (List Char)} (h : lines ≠ []) :
    Loader.load lines = Loader.readLines 0 lines := by
  cases lines with
  | nil => exact absurd rfl h
  | cons text rest => rfl

/-- A line and those behind it are accepted exactly when the line gives the next address, which the memory has, and
those behind it are accepted from the address after it (70_reset_and_hazards.md R134, R135). -/
theorem Loader.readLines_cons_eq_ok_iff (next : Nat) (text : List Char) (rest : List (List Char)) (words : List Word) :
    Loader.readLines next (text :: rest) = .ok words ↔
      ∃ v ws, Loader.parseLine text = some (next, v) ∧ next < 8192 ∧
        Loader.readLines (next + 1) rest = .ok ws ∧ words = v :: ws := by
  cases hp : Loader.parseLine text with
  | none => simp [Loader.readLines, hp]
  | some line =>
    obtain ⟨a, v⟩ := line
    by_cases ha : a = next
    · by_cases hn : next < 8192
      · cases hr : Loader.readLines (next + 1) rest <;>
          simp [Loader.readLines, hp, ha, hn, Nat.not_le.mpr hn, hr, eq_comm]
      · simp [Loader.readLines, hp, ha, hn, Nat.le_of_not_lt hn]
    · simp [Loader.readLines, hp, ha]

/-- Lines are accepted from address `next` on exactly when they fit and line `k` gives address `next + k`. -/
theorem Loader.readLines_eq_ok_iff {next : Nat} (hnext : next ≤ 8192) (lines : List (List Char)) (words : List Word) :
    Loader.readLines next lines = .ok words ↔
      words.length = lines.length ∧ next + lines.length ≤ 8192 ∧
        ∀ (k : Nat) (text : List Char), lines[k]? = some text →
          Loader.parseLine text = (words[k]?).map (fun v => (next + k, v)) := by
  induction lines generalizing next words with
  | nil => simp [Loader.readLines, hnext, eq_comm (a := ([] : List Word))]
  | cons text rest ih =>
    rw [Loader.readLines_cons_eq_ok_iff]
    constructor
    · rintro ⟨v, ws, hp, hlt, hrest, rfl⟩
      obtain ⟨hlen, hfit, hlines⟩ := (ih hlt ws).mp hrest
      refine ⟨by simp [hlen], by simp only [List.length_cons]; omega, fun k text' hk => ?_⟩
      cases k with
      | zero =>
        obtain rfl : text = text' := by simpa using hk
        simpa using hp
      | succ k => simpa [Nat.add_assoc, Nat.add_comm 1] using hlines k text' (by simpa using hk)
    · rintro ⟨hlen, hfit, hlines⟩
      simp only [List.length_cons] at hlen hfit
      obtain ⟨v, ws, rfl⟩ := List.exists_cons_of_length_eq_add_one hlen
      have hws : ws.length = rest.length := by simpa using hlen
      refine ⟨v, ws, by simpa using hlines 0 text rfl, by omega, ?_, rfl⟩
      refine (ih (by omega) ws).mpr ⟨hws, by omega, fun k text' hk => ?_⟩
      simpa [Nat.add_assoc, Nat.add_comm 1] using hlines (k + 1) text' (by simpa using hk)

/-- Behind lines in sequence the Loader answers the error that it would answer of the lines that follow alone. -/
theorem Loader.readLines_append_eq_error {next : Nat} {before after : List (List Char)} {e : LoadError}
    (hfit : next + before.length ≤ 8192)
    (hbefore : ∀ (k : Nat) (text : List Char), before[k]? = some text →
      ∃ v, Loader.parseLine text = some (next + k, v))
    (hafter : Loader.readLines (next + before.length) after = .error e) :
    Loader.readLines next (before ++ after) = .error e := by
  induction before generalizing next with
  | nil => exact hafter
  | cons text rest ih =>
    simp only [List.length_cons] at hfit hafter
    obtain ⟨v, hp⟩ := hbefore 0 text rfl
    have hrest : Loader.readLines (next + 1) (rest ++ after) = .error e := by
      refine ih (by omega) (fun k text' hk => ?_) (by rwa [Nat.add_right_comm, Nat.add_assoc])
      simpa [Nat.add_assoc, Nat.add_comm 1] using hbefore (k + 1) text' (by simpa using hk)
    have hlt : ¬ 8192 ≤ next := by omega
    simp [Loader.readLines, hp, hlt, hrest]

/-- The parts of a text of the pattern's form, given piece by piece: the numeral's value and the 16-character field. -/
theorem Loader.lineParts_of_form {address field : List Char} (trailing : List Char) (hne : address ≠ [])
    (hdigits : ∀ c ∈ address, c.isDigit = true) (hfield : field.length = 16) :
    Loader.lineParts (['r', 'a', 'm', '['] ++ address ++ [']', ' ', '=', ' ', '1', '6', '\'', 'b'] ++ field ++ [';'] ++
      trailing) = some ((Loader.decimal 0 address).1, field) := by
  have haddress : ∀ rest : List Char, (∀ c, rest.head? = some c → c.isDigit = false) →
      Loader.address (address ++ rest) = some ((Loader.decimal 0 address).1, rest) := fun rest hrest => by
    rw [← Loader.decimal_append address rest 0 hdigits hrest]
    obtain ⟨c, cs, rfl⟩ := List.exists_cons_of_ne_nil hne
    exact if_pos (hdigits c List.mem_cons_self)
  simp only [List.append_assoc, Loader.lineParts, Loader.after_append, Option.bind_eq_bind, Option.bind_some]
  rw [haddress _ (by rintro c ⟨⟩; decide)]
  simp only [Option.bind_some, Loader.after_append, List.take_left' hfield, List.drop_left' hfield, hfield, if_true]
  rfl

/-! ## The numeral and the field of a line -/

/-- The character of a decimal digit is read as that digit. -/
theorem decimalCharacters_reads : ∀ d, d < 10 →
    (decimalCharacters.getD d '0').isDigit = true ∧ (decimalCharacters.getD d '0').toNat - 48 = d := by decide

/-- The first digit counts as many tens as digits follow it. -/
theorem decimalValue_cons (d : Nat) (digits : List Nat) :
    decimalValue (d :: digits) = d * 10 ^ digits.length + decimalValue digits := by
  have hexp : ∀ j, digits.length + 1 - 1 - (j + 1) = digits.length - 1 - j := fun j => by omega
  simp only [decimalValue, List.length_cons, List.range_succ_eq_map, List.map_cons, List.sum_cons, List.map_map,
    Function.comp_def, Nat.succ_eq_add_one, hexp, List.getD_cons_succ]
  rfl

/-- Reading a numeral on top of `acc` gives its value below the digits of `acc`. -/
theorem Loader.decimal_eq {digits : List Nat} (hdigits : ∀ d ∈ digits, d < 10) (acc : Nat) :
    (Loader.decimal acc (digits.map fun d => decimalCharacters.getD d '0')).1 =
      acc * 10 ^ digits.length + decimalValue digits := by
  induction digits generalizing acc with
  | nil => simp [Loader.decimal, decimalValue]
  | cons d digits ih =>
    obtain ⟨hd, hrest⟩ := List.forall_mem_cons.mp hdigits
    obtain ⟨hdigit, hvalue⟩ := decimalCharacters_reads d hd
    rw [List.map_cons, Loader.decimal, if_pos hdigit, hvalue, ih hrest, decimalValue_cons, List.length_cons,
      Nat.add_mul, Nat.mul_assoc, Nat.pow_succ', Nat.add_assoc]

/-- A line of the pattern's form gives its own address, with whatever word its field is (R135). -/
theorem Loader.parseLine_of_form {digits : List Nat} {field : List Char} (trailing : List Char) (hne : digits ≠ [])
    (hdigits : ∀ d ∈ digits, d < 10) (hfield : field.length = 16) :
    Loader.parseLine (['r', 'a', 'm', '['] ++ digits.map (fun d => decimalCharacters.getD d '0') ++
      [']', ' ', '=', ' ', '1', '6', '\'', 'b'] ++ field ++ [';'] ++ trailing) =
      (Loader.fieldWord field).map (fun v => (decimalValue digits, v)) := by
  have hchars : ∀ c ∈ digits.map (fun d => decimalCharacters.getD d '0'), c.isDigit = true := by
    simpa using fun d hd => (decimalCharacters_reads d (hdigits d hd)).1
  have hparts := Loader.lineParts_of_form trailing (by simpa using hne) hchars hfield
  rw [Loader.decimal_eq hdigits, Nat.zero_mul, Nat.zero_add] at hparts
  exact Loader.parseLine_of_parts (Loader.body_of_head (by rintro c ⟨⟩; decide)) hparts

/-- A line is parsed as its body, and malformed without one. -/
theorem Loader.parseLine_congr {text text' : List Char} (h : Loader.body text = Loader.body text') :
    Loader.parseLine text = Loader.parseLine text' := by
  unfold Loader.parseLine
  rw [h]

theorem Loader.parseLine_of_no_body {text : List Char} (h : Loader.body text = none) :
    Loader.parseLine text = none := by
  unfold Loader.parseLine
  rw [h]
  rfl

/-- Reading a binary digit puts it behind the bits read so far. -/
theorem Loader.binary_cons {c : Char} (hc : c = '0' ∨ c = '1') (rest : List Char) (acc : Nat) :
    Loader.binary acc (c :: rest) = Loader.binary (acc * 2 + (decide (c = '1')).toNat) rest := by
  obtain rfl | rfl := hc <;> rfl

/-- The digit put behind the bits of `acc` is the lowest bit. -/
theorem testBit_mul_two_add_zero (acc : Nat) (b : Bool) : (acc * 2 + b.toNat).testBit 0 = b := by
  rw [Nat.testBit_zero, Nat.mul_add_mod_self_right]
  cases b <;> rfl

/-- The bits of `acc` stand one place above the digit put behind them. -/
theorem testBit_mul_two_add_succ (acc : Nat) (b : Bool) (j : Nat) :
    (acc * 2 + b.toNat).testBit (j + 1) = acc.testBit j := by
  have hhalf : (acc * 2 + b.toNat) / 2 = acc := by cases b <;> simp only [Bool.toNat_false, Bool.toNat_true] <;> omega
  rw [Nat.testBit_succ, hhalf]

/-- Reading binary digits on top of `acc` puts them below the bits of `acc`, the first digit the highest. -/
theorem Loader.binary_bits {bits : List Char} (hbits : ∀ c ∈ bits, c = '0' ∨ c = '1') (acc : Nat) :
    ∃ n, Loader.binary acc bits = some n ∧
      (∀ k, k < bits.length → n.testBit (bits.length - 1 - k) = decide (bits[k]? = some '1')) ∧
      ∀ j, n.testBit (bits.length + j) = acc.testBit j := by
  induction bits generalizing acc with
  | nil => exact ⟨acc, rfl, by simp, by simp⟩
  | cons c rest ih =>
    obtain ⟨hc, hrest⟩ := List.forall_mem_cons.mp hbits
    obtain ⟨n, hn, hread, habove⟩ := ih hrest (acc * 2 + (decide (c = '1')).toNat)
    refine ⟨n, (Loader.binary_cons hc rest acc).trans hn, fun k hk => ?_, fun j => ?_⟩
    · cases k with
      | zero =>
        have hfirst := (habove 0).trans (testBit_mul_two_add_zero acc (decide (c = '1')))
        simpa using hfirst
      | succ k =>
        have hk' : k < rest.length := by simpa using hk
        have hpos : (c :: rest).length - 1 - (k + 1) = rest.length - 1 - k := by simp only [List.length_cons]; omega
        rw [hpos, hread k hk', List.getElem?_cons_succ]
    · have hpos : (c :: rest).length + j = rest.length + (j + 1) := by simp only [List.length_cons]; omega
      rw [hpos, habove, testBit_mul_two_add_succ]

/-- A field of 16 binary digits is the word whose bit 15 is the first digit (20_memory.md R37, assumption log 8). -/
theorem Loader.fieldWord_bits {bits : List Char} (hlen : bits.length = 16) (hbits : ∀ c ∈ bits, c = '0' ∨ c = '1') :
    ∃ v : Word, Loader.fieldWord bits = some v ∧ ∀ k, k < 16 → (v.getLsbD (15 - k) = true ↔ bits[k]? = some '1') := by
  obtain ⟨n, hn, hread, -⟩ := Loader.binary_bits hbits 0
  refine ⟨BitVec.ofNat 16 n, by rw [Loader.fieldWord, hn], fun k hk => ?_⟩
  have hbit : n.testBit (15 - k) = decide (bits[k]? = some '1') := by simpa [hlen] using hread k (by omega)
  have hpos : 15 - k < 16 := by omega
  rw [BitVec.getLsbD_ofNat, hbit, decide_eq_true hpos, Bool.true_and, decide_eq_true_iff]

end Sys2Proof.Machine

/-! ## The statements about the Loader -/

namespace Sys2Proof.Proofs

open Sys2Proof.Machine

/-- Settles O48: a file of at least one line is read from address 0. -/
theorem loaderAcceptsExactlySequentialFiles : Obligations.LoaderAcceptsExactlySequentialFiles := by
  intro lines words hne
  simpa only [Loader.load_of_ne_nil hne, Nat.zero_add] using Loader.readLines_eq_ok_iff (Nat.zero_le 8192) lines words

/-- Settles O49: the Loader's answer is that of the offending line, read at the address behind the lines before it. -/
theorem loaderAbortsAtFirstOffendingLine : Obligations.LoaderAbortsAtFirstOffendingLine := by
  intro before rest bad hlen hbefore
  have habort : ∀ e, Loader.readLines before.length (bad :: rest) = .error e →
      Loader.load (before ++ bad :: rest) = .error e := fun e he => by
    rw [Loader.load_of_ne_nil (by simp)]
    exact Loader.readLines_append_eq_error (by rwa [Nat.zero_add]) (by simpa only [Nat.zero_add] using hbefore)
      (by rwa [Nat.zero_add])
  refine ⟨fun hbad => habort _ ?_, fun a v hbad ha => habort _ ?_, fun v hbad hfull => habort _ ?_⟩
  · simp [Loader.readLines, hbad]
  · simp [Loader.readLines, hbad, ha]
  · simp [Loader.readLines, hbad, hfull]

/-- Settles O50: the line's parts are its numeral and its field, and each is read digit by digit. -/
theorem loaderReadsFirstDigitAsBit15 : Obligations.LoaderReadsFirstDigitAsBit15 := by
  intro digits bits trailing hne hdigits hlen hbits
  obtain ⟨v, hv, hread⟩ := Loader.fieldWord_bits hlen hbits
  refine ⟨v, ?_, hread⟩
  rw [Loader.parseLine_of_form trailing hne hdigits hlen, hv, Option.map_some]

/-- Settles O53: behind white space stands the same body or none, and a field gives no address. -/
theorem loaderOpenLinesKeepPatternAndAddress : Obligations.LoaderOpenLinesKeepPatternAndAddress := by
  refine ⟨fun white rest hwhite hrest => ?_, fun digits field trailing hne hdigits hfield a v hline => ?_⟩
  · have hbody := Loader.body_append hwhite hrest
    by_cases hpass : (white.isEmpty || Config.loaderPassesOver white) = true
    · rw [if_pos hpass, ← Loader.body_of_head hrest] at hbody
      exact .inl (Loader.parseLine_congr hbody)
    · rw [if_neg hpass] at hbody
      exact .inr ⟨fun hnil => hpass (by simp [hnil]), Loader.parseLine_of_no_body hbody⟩
  · rw [Loader.parseLine_of_form trailing hne hdigits hfield] at hline
    obtain ⟨w, -, hw⟩ := Option.map_eq_some_iff.mp hline
    exact (Prod.mk.inj hw).1.symm

end Sys2Proof.Proofs

/-! ## The Reporter's rules: numerals of a fixed width, and cells separated by spaces -/

namespace Sys2Proof.Machine

/-- Counted from the last, character `i` of a number's digits is that of its digit with the weight `b ^ i`. -/
theorem reverse_toDigits_getElem? {b : Nat} (hb : 1 < b) (n : Nat) {i : Nat} (hi : i < (Nat.toDigits b n).length) :
    (Nat.toDigits b n).reverse[i]? = some (n / b ^ i % b).digitChar := by
  induction n using Nat.strongRecOn generalizing i with
  | ind n ih =>
    by_cases hn : n < b
    · rw [Nat.toDigits_of_lt_base hn] at hi ⊢
      obtain rfl : i = 0 := by simpa using hi
      simp [Nat.mod_eq_of_lt hn]
    · have hbn : b ≤ n := Nat.le_of_not_lt hn
      have hlt : n / b < n := Nat.div_lt_self (by omega) hb
      rw [Nat.toDigits_of_base_le hb hbn] at hi ⊢
      rw [List.reverse_append, List.reverse_singleton, List.singleton_append]
      cases i with
      | zero => simp
      | succ i =>
        have hi' : i < (Nat.toDigits b (n / b)).length := by simpa using hi
        rw [List.getElem?_cons_succ, ih _ hlt hi', Nat.div_div_eq_div_mul, Nat.pow_succ']

/-- A number's digits, filled with zeros to any width, are a numeral of it. -/
theorem isNumeral_leftpad_toDigits {characters : List Char} {b : Nat} (hb : 1 < b) (hlen : characters.length = b)
    (hchars : ∀ d, d < b → characters[d]? = some d.digitChar) (width n : Nat) :
    IsNumeral characters n ((Nat.toDigits b n).leftpad width '0') := by
  have hpos : 0 < (Nat.toDigits b n).length := List.length_pos_iff.mpr Nat.toDigits_ne_nil
  have hdigits : n < b ^ (Nat.toDigits b n).length := (Nat.length_toDigits_le_iff hb hpos).mp (Nat.le_refl _)
  have hwidth : (Nat.toDigits b n).length ≤ ((Nat.toDigits b n).leftpad width '0').length := by
    rw [List.length_leftpad]
    exact Nat.le_max_right _ _
  have hread : ∀ i, i < ((Nat.toDigits b n).leftpad width '0').length →
      ((Nat.toDigits b n).leftpad width '0').reverse[i]? = some (n / b ^ i % b).digitChar := fun i hi => by
    rw [List.leftpad, List.reverse_append, List.reverse_replicate]
    by_cases hin : i < (Nat.toDigits b n).length
    · rw [List.getElem?_append_left (by simpa using hin), reverse_toDigits_getElem? hb n hin]
    · have hzero : n / b ^ i = 0 :=
        Nat.div_eq_of_lt (Nat.lt_of_lt_of_le hdigits (Nat.pow_le_pow_right (by omega) (Nat.le_of_not_lt hin)))
      rw [List.getElem?_append_right (by simpa using hin), hzero, Nat.zero_mod, List.getElem?_replicate_of_lt]
      · rfl
      · simp only [List.length_leftpad, List.length_reverse] at hi ⊢
        omega
  refine ⟨List.ne_nil_of_length_pos (Nat.lt_of_lt_of_le hpos hwidth), ?_, fun j hj => ?_⟩
  · rw [hlen]
    exact Nat.lt_of_lt_of_le hdigits (Nat.pow_le_pow_right (by omega) hwidth)
  · rw [hlen, hchars _ (Nat.mod_lt _ (by omega)), ← hread _ (by omega), List.getElem?_reverse (by omega)]
    congr 1
    omega

theorem decimalCharacters_getElem? : ∀ d, d < 10 → decimalCharacters[d]? = some d.digitChar := by decide

theorem hexCharacters_getElem? : ∀ d, d < 16 → hexCharacters[d]? = some d.digitChar := by decide

/-- The decimal digits of a register's value are a numeral of it. -/
theorem isNumeral_toDigits_ten (n : Nat) : IsNumeral decimalCharacters n (Nat.toDigits 10 n) := by
  have hpad : (Nat.toDigits 10 n).leftpad 0 '0' = Nat.toDigits 10 n := by
    rw [List.leftpad, Nat.zero_sub, List.replicate_zero, List.nil_append]
  have hnumeral := isNumeral_leftpad_toDigits (b := 10) (by decide) rfl decimalCharacters_getElem? 0 n
  rwa [hpad] at hnumeral

theorem Report.isNumeral_hex4 (v : Word) : IsNumeral hexCharacters v.toNat (Report.hex4 v) :=
  isNumeral_leftpad_toDigits (b := 16) (by decide) rfl hexCharacters_getElem? 4 v.toNat

/-- A 16-bit value has at most 4 hexadecimal digits. -/
theorem Report.length_hex4 (v : Word) : (Report.hex4 v).length = 4 := by
  have hdigits : (Nat.toDigits 16 v.toNat).length ≤ 4 := (Nat.length_toDigits_le_iff (by decide) (by decide)).mpr v.isLt
  rw [Report.hex4, List.length_leftpad, Nat.max_eq_left hdigits]

/-- A 16-bit value has at most 5 decimal digits. -/
theorem Report.length_decimal5 (v : Word) : (Report.decimal5 v).length = 5 := by
  have hdigits : (Nat.toDigits 10 v.toNat).length ≤ 5 :=
    (Nat.length_toDigits_le_iff (by decide) (by decide)).mpr (Nat.lt_trans v.isLt (by decide))
  rw [Report.decimal5, List.length_leftpad, Nat.max_eq_left hdigits]

/-- A number of more than one digit is written without a leading zero. -/
theorem toDigits_ten_no_leading_zero (n : Nat) :
    (Nat.toDigits 10 n).length = 1 ∨ 10 ^ ((Nat.toDigits 10 n).length - 1) ≤ n := by
  have hpos : 0 < (Nat.toDigits 10 n).length := List.length_pos_iff.mpr Nat.toDigits_ne_nil
  by_cases hone : (Nat.toDigits 10 n).length = 1
  · exact .inl hone
  · refine .inr (Nat.le_of_not_lt fun hlt => ?_)
    have := (Nat.length_toDigits_le_iff (by decide : 1 < 10) (by omega)).mpr hlt
    omega

/-- Cells of 4 characters with a space between two: cell `k` begins at character `5 * k`. -/
theorem length_intercalate_space {cells : List (List Char)} (hcells : ∀ c ∈ cells, c.length = 4) :
    (List.intercalate [' '] cells).length = 5 * cells.length - 1 := by
  induction cells with
  | nil => rfl
  | cons c rest ih =>
    obtain ⟨hc, hrest⟩ := List.forall_mem_cons.mp hcells
    cases rest with
    | nil => simp [hc]
    | cons c' rest' =>
      rw [List.intercalate_cons_cons, List.length_append, List.length_append, ih hrest, hc]
      simp only [List.length_cons, List.length_nil]
      omega

/-- Behind the first cell and its space stand the others, laid out alike. -/
theorem drop_intercalate_space {c : List Char} {rest : List (List Char)} (hc : c.length = 4) (hrest : rest ≠ []) :
    (List.intercalate [' '] (c :: rest)).drop 5 = List.intercalate [' '] rest := by
  rw [List.intercalate_cons_of_ne_nil hrest]
  exact List.drop_left' (by simp [hc])

theorem take_intercalate_space {c : List Char} (rest : List (List Char)) (hc : c.length = 4) :
    (List.intercalate [' '] (c :: rest)).take 4 = c := by
  cases rest with
  | nil => rw [List.intercalate_singleton, List.take_of_length_le (Nat.le_of_eq hc)]
  | cons c' rest' =>
    rw [List.intercalate_cons_cons, List.append_assoc]
    exact List.take_left' hc

/-- From character `5 * k` on stand the cells from `k` on. -/
theorem drop_mul_intercalate_space {cells : List (List Char)} (hcells : ∀ c ∈ cells, c.length = 4) {k : Nat}
    (hk : k < cells.length) :
    (List.intercalate [' '] cells).drop (5 * k) = List.intercalate [' '] (cells.drop k) := by
  induction k generalizing cells with
  | zero => rfl
  | succ k ih =>
    obtain ⟨c, rest, rfl⟩ := List.exists_cons_of_length_pos (Nat.zero_lt_of_lt hk)
    obtain ⟨hc, hrest⟩ := List.forall_mem_cons.mp hcells
    have hk' : k < rest.length := by simpa using hk
    rw [Nat.mul_succ, Nat.add_comm, ← List.drop_drop,
      drop_intercalate_space hc (List.ne_nil_of_length_pos (Nat.zero_lt_of_lt hk')), ih hrest hk', List.drop_succ_cons]

/-- Characters `5 * k` to `5 * k + 3` are those of cell `k`. -/
theorem cell_of_intercalate_space {cells : List (List Char)} (hcells : ∀ c ∈ cells, c.length = 4) {k : Nat}
    (hk : k < cells.length) : ((List.intercalate [' '] cells).drop (5 * k)).take 4 = cells[k] := by
  rw [drop_mul_intercalate_space hcells hk, List.drop_eq_getElem_cons hk,
    take_intercalate_space _ (hcells _ (List.getElem_mem hk))]

/-- Behind every cell but the last stands a space. -/
theorem space_of_intercalate_space {cells : List (List Char)} (hcells : ∀ c ∈ cells, c.length = 4) {k : Nat}
    (hk : k + 1 < cells.length) : (List.intercalate [' '] cells)[5 * k + 4]? = some ' ' := by
  have hk' : k < cells.length := Nat.lt_of_succ_lt hk
  have hne : cells.drop (k + 1) ≠ [] := by simpa using hk
  have hc : cells[k].length = 4 := hcells _ (List.getElem_mem hk')
  rw [← List.getElem?_drop, drop_mul_intercalate_space hcells hk', List.drop_eq_getElem_cons hk',
    List.intercalate_cons_of_ne_nil hne, List.append_assoc, List.getElem?_append_right (Nat.le_of_eq hc), hc]
  rfl

/-- The texts of the cells of a line: the 8 cells from address `base` on. -/
def Report.cellTexts (m : Memory) (base : Nat) : List (List Char) :=
  (List.range Config.reportCellsPerLine).map (fun k => Report.hex4 (m.lookup (base + k)))

theorem Report.memoryLine_eq (m : Memory) (base : Nat) :
    Report.memoryLine m base = List.intercalate [' '] (Report.cellTexts m base) := rfl

theorem Report.cellTexts_length (m : Memory) (base : Nat) : (Report.cellTexts m base).length = 8 := by
  rw [Report.cellTexts, List.length_map, List.length_range]

theorem Report.length_of_mem_cellTexts (m : Memory) (base : Nat) :
    ∀ c ∈ Report.cellTexts m base, c.length = 4 :=
  List.forall_mem_map.mpr fun _ _ => Report.length_hex4 _

theorem report_memoryLines_length (f : FinalState) : (report f).memoryLines.length = 16 :=
  (List.length_map _).trans List.length_range

/-- Line `i` of the report shows the cells from address `8 * i` on. -/
theorem report_memoryLines_getElem? (f : FinalState) {i : Nat} (hi : i < 16) :
    (report f).memoryLines[i]? = some (Report.memoryLine f.mem (i * 8)) := by
  have hline : i < Config.reportCells / Config.reportCellsPerLine := hi
  rw [report, List.getElem?_map, List.getElem?_range hline, Option.map_some]

/-- A memory cell of the report is one of the memory's addresses. -/
theorem read_ofNat_eq_lookup (m : Memory) {n : Nat} (hn : n < 8192) : m.read (BitVec.ofNat 13 n) = m.lookup n := by
  rw [Memory.read, BitVec.toNat_ofNat, Nat.mod_eq_of_lt hn]

theorem report_registers_length (f : FinalState) : (report f).registers.length = f.registers.length := by
  simp [report]

/-- Entry `k` of the report's registers is `k` with the text of register `k`'s value. -/
theorem report_registers_getElem? {f : FinalState} {k : Nat} {v : Word} (hk : f.registers[k]? = some v) :
    (report f).registers[k]? = some (k, Report.decimal5 v) := by
  obtain ⟨hlt, -⟩ := List.getElem?_eq_some_iff.mp hk
  refine List.getElem?_zip_eq_some.mpr ⟨List.getElem?_range hlt, ?_⟩
  rw [List.getElem?_map, hk, Option.map_some]

end Sys2Proof.Machine

/-! ## The statement about the Reporter -/

namespace Sys2Proof.Proofs

open Sys2Proof.Machine

/-- Settles O52: a register's text is its decimal digits behind spaces, and a memory line is 8 cells of 4 characters
with spaces between them. -/
theorem reportFieldsHaveFixedWidth : Obligations.ReportFieldsHaveFixedWidth := by
  intro f
  refine ⟨report_registers_length f, fun k v hk => ?_, report_memoryLines_length f, fun i hi => ?_⟩
  · exact ⟨_, Nat.toDigits 10 v.toNat, report_registers_getElem? hk, Report.length_decimal5 v, rfl,
      isNumeral_toDigits_ten v.toNat, toDigits_ten_no_leading_zero v.toNat⟩
  · have hcells := Report.length_of_mem_cellTexts f.mem (i * 8)
    have hlen := Report.cellTexts_length f.mem (i * 8)
    refine ⟨_, report_memoryLines_getElem? f hi, ?_, fun k hk => ⟨?_, fun hk7 => ?_⟩⟩
    · rw [Report.memoryLine_eq, length_intercalate_space hcells, hlen]
    · have hcell : (Report.cellTexts f.mem (i * 8))[k]'(hlen ▸ hk) =
          Report.hex4 (f.mem.read (BitVec.ofNat 13 (8 * i + k))) := by
        rw [read_ofNat_eq_lookup f.mem (by omega), Nat.mul_comm 8 i]
        simp only [Report.cellTexts, List.getElem_map, List.getElem_range]
      rw [Report.memoryLine_eq, cell_of_intercalate_space hcells (hlen ▸ hk), hcell]
      exact Report.isNumeral_hex4 _
    · exact space_of_intercalate_space hcells (by omega)

end Sys2Proof.Proofs
